-- ==== Sys2Proof/Word.lean ====
section
/-! DEFINITION. The widths of UBP-CORE's values (00_scope.md R11) and the form of one command at the port
(30_encoding.md R80). -/

namespace Sys2Proof

/-- A byte: 8 bits, numbered 7 (most significant) to 0 (00_scope.md R11). -/
abbrev Byte := BitVec 8

/-- A command word (30_encoding.md R80, R87: every command word is 32 bits). -/
abbrev Word := BitVec 32

/-- A packet identifier (30_encoding.md R82). -/
abbrev Ident := BitVec 16

/-- One command as the environment presents it at the port: the command word W and the data vector D,
which carries its own length (30_encoding.md R80, R87). -/
structure Cmd where
  word : Word
  data : List Byte
  deriving DecidableEq, Repr

end Sys2Proof
end

