-- ==== Sys2Proof/Config.lean ====
section
/-! DEFINITION. The implementation parameters (00_scope.md R7, R9) and the values the spec leaves open. -/

namespace Sys2Proof

/-- The transport's answer to one PUMP (42_transmit.md R160). -/
inductive Resp where
  /-- The transport took the chunk within RETRY_MAX attempts. -/
  | accept
  /-- The transport refused all RETRY_MAX attempts. -/
  | exhaust
  deriving DecidableEq, Repr, Inhabited

/-- FREE VALUE (log 12). Which of the seven bits other than bit 0 is RequiresACK in the reference configuration: OPEN
in the spec (00_scope.md R7, column "reference value"; 92_eei_decisions.md D25). -/
opaque Config.requiresAckBit : Fin 7

/-- The masks REQUIRES_ACK_MASK may take: one bit of 8 other than IsRPC's 0x01 (00_scope.md R7, 30_encoding.md R74,
92_eei_decisions.md D25). -/
def Config.ackMasks : List Byte :=
  [0x02#8, 0x04#8, 0x08#8, 0x10#8, 0x20#8, 0x40#8, 0x80#8]

/-- The parameters of 00_scope.md R7 that vary between configurations, each with its constraint: a configuration cannot
be written down without a proof of every constraint, which `decide` gives for numerals when the term is elaborated
(R7: "checks the constraints at elaboration"). DATA_MAX is fixed (`dataMax`). -/
structure Config where
  /-- TX_CAP, the transmit buffer's capacity in bytes. -/
  txCap : Nat
  /-- RX_CAP, the receive buffer's capacity in bytes. -/
  rxCap : Nat
  /-- CHUNK_SIZE, the largest transport write in bytes. -/
  chunkSize : Nat
  /-- RETRY_MAX, send attempts per PUMP; hidden inside PUMP's draw (R160; log 12). -/
  retryMax : Nat
  /-- RX_CLEAR_ON_DISPATCH (R9). -/
  rxClearOnDispatch : Bool
  /-- REQUIRES_ACK_MASK, the bit value of the RequiresACK flag; no rule reads it (D25; log 12). -/
  requiresAckMask : Byte
  txCap_range : 6 ≤ txCap ∧ txCap ≤ 255 := by decide
  rxCap_range : 2 ≤ rxCap ∧ rxCap ≤ 255 := by decide
  chunkSize_range : 1 ≤ chunkSize ∧ chunkSize ≤ 255 := by decide
  retryMax_range : 1 ≤ retryMax := by decide
  requiresAckMask_range : requiresAckMask ∈ Config.ackMasks := by decide
  deriving DecidableEq, Repr

/-- Bit k + 1 of a byte is one of the masks of `Config.ackMasks`. -/
theorem Config.bit_mem_ackMasks : ∀ k : Fin 7, 1#8 <<< (k.val + 1) ∈ Config.ackMasks := by decide

/-- The reference configuration (00_scope.md R7, column "reference value"), with its mask left open. -/
def Config.reference : Config :=
  { txCap := 64
    rxCap := 64
    chunkSize := 20
    retryMax := 1000
    rxClearOnDispatch := true
    requiresAckMask := 1#8 <<< (Config.requiresAckBit.val + 1)
    requiresAckMask_range := Config.bit_mem_ackMasks Config.requiresAckBit }

/-- DATA_MAX, the longest data vector on the command and result ports: fixed (00_scope.md R7, 30_encoding.md R80). -/
def dataMax : Nat := 255

/-- FREE VALUE (log 2). The transport's answer to the n-th draw where the environment has listed none
(42_transmit.md R160: a draw "which no rule of the block constrains"). -/
opaque Config.transportAnswer : Nat → Resp

end Sys2Proof
end

