-- ==== Sys2Proof/Syntax.lean ====
section
/-! DEFINITION. The command set: one constructor per row of spec/opcode_table.json (30_encoding.md R83). -/

namespace Sys2Proof

/-- A command with its operands assembled as 30_encoding.md R82 says; the last argument of a command that
takes a data vector is that vector. -/
inductive Instr where
  /-- CRC8 [D] (40_checksum.md R106). -/
  | crc8 (data : List Byte)
  /-- ESCAPE cap=n, [D] (41_codec.md R126). -/
  | escape (cap : Byte) (data : List Byte)
  /-- UNESCAPE [D] (41_codec.md R134). -/
  | unescape (data : List Byte)
  /-- QUEUE id=…, flags=…, [D] (42_transmit.md R150). -/
  | queue (ident : Ident) (flags : Byte) (data : List Byte)
  /-- PUMP (42_transmit.md R160). -/
  | pump
  /-- INGEST [F] (43_receive.md R180). -/
  | ingest (fragment : List Byte)
  /-- CONNECT (44_lifecycle.md R210). -/
  | connect
  /-- DISCONNECT (44_lifecycle.md R211). -/
  | disconnect
  /-- READ_STATUS (44_lifecycle.md R214). -/
  | readStatus
  deriving DecidableEq, Repr

end Sys2Proof
end

