-- ==== Sys2Proof/WellFormed.lean ====
section
/-! DEFINITION. Which commands are well formed: the data lengths of 30_encoding.md R80 and R83. Every value of
the scalar operands is legal (30_encoding.md R82, 42_transmit.md R150). -/

namespace Sys2Proof

/-- The data vector fits the port: at most DATA_MAX bytes (30_encoding.md R80). -/
def Cmd.wf (c : Cmd) : Bool := decide (c.data.length ≤ dataMax)

/-- The data length is in the range 30_encoding.md R83 allows for the command. -/
def Instr.wf : Instr → Bool
  | .crc8 d => decide (d.length ≤ dataMax)
  | .escape _ d => decide (d.length ≤ dataMax)
  | .unescape d => decide (d.length ≤ dataMax)
  | .queue _ _ d => decide (d.length ≤ dataMax)
  | .pump => true
  | .ingest f => decide (1 ≤ f.length) && decide (f.length ≤ dataMax)
  | .connect => true
  | .disconnect => true
  | .readStatus => true

end Sys2Proof
end

