-- ==== Sys2Proof/Decode.lean ====
section
/-! DEFINITION. The decoder, by the match and mask table of 30_encoding.md R84 and the procedure of R86; the
encoder, by the fields of R81; the text form of R89; and the host's reading of a table word. -/

namespace Sys2Proof

/-- One row of the match and mask table (30_encoding.md R84) with the data lengths of R83 and the operand
assembly of R82. -/
structure OpRow where
  mnemonic : String
  pattern : Word
  mask : Word
  minLen : Nat
  maxLen : Nat
  build : Word → List Byte → Instr

/-- `id = W[31:16]` (30_encoding.md R82). -/
def identField (w : Word) : Ident := w.extractLsb' 16 16

/-- `flags = W[15:8]` for QUEUE and `cap = W[15:8]` for ESCAPE (30_encoding.md R82). -/
def arg8Field (w : Word) : Byte := w.extractLsb' 8 8

/-- RSV, `W[7:4]` (30_encoding.md R81). -/
def rsvField (w : Word) : BitVec 4 := w.extractLsb' 4 4

/-- OP, `W[3:0]` (30_encoding.md R81). -/
def opField (w : Word) : BitVec 4 := w.extractLsb' 0 4

/-- The match and mask table (30_encoding.md R84; data lengths: R83), in the table's order. -/
def opcodeRows : List OpRow :=
  [ ⟨"CRC8", 0x00000001#32, 0xFFFFFFFF#32, 0, dataMax, fun _ d => .crc8 d⟩,
    ⟨"ESCAPE", 0x00000002#32, 0xFFFF00FF#32, 0, dataMax, fun w d => .escape (arg8Field w) d⟩,
    ⟨"UNESCAPE", 0x00000003#32, 0xFFFFFFFF#32, 0, dataMax, fun _ d => .unescape d⟩,
    ⟨"QUEUE", 0x00000004#32, 0x000000FF#32, 0, dataMax, fun w d => .queue (identField w) (arg8Field w) d⟩,
    ⟨"PUMP", 0x00000005#32, 0xFFFFFFFF#32, 0, 0, fun _ _ => .pump⟩ ] ++
  [ ⟨"INGEST", 0x00000006#32, 0xFFFFFFFF#32, 1, dataMax, fun _ d => .ingest d⟩,
    ⟨"CONNECT", 0x00000007#32, 0xFFFFFFFF#32, 0, 0, fun _ _ => .connect⟩,
    ⟨"DISCONNECT", 0x00000008#32, 0xFFFFFFFF#32, 0, 0, fun _ _ => .disconnect⟩,
    ⟨"READ_STATUS", 0x00000009#32, 0xFFFFFFFF#32, 0, 0, fun _ _ => .readStatus⟩ ]

/-- Why a command is illegal (30_encoding.md R85). -/
inductive Illegal where
  /-- R85 (a): no row of R84 matches W. -/
  | noRowMatches
  /-- R85 (b): the data length is outside the opcode's range. -/
  | dataLength
  deriving DecidableEq, Repr

/-- What a pair (W, D) decodes to (30_encoding.md R86): one command with its operands, or ILLEGAL. -/
inductive Decoded where
  | instr (i : Instr)
  | illegal (why : Illegal)
  deriving DecidableEq, Repr

/-- W selects the row: `(W & mask) = match` (30_encoding.md R84). -/
def OpRow.selects (r : OpRow) (w : Word) : Bool := w &&& r.mask == r.pattern

/-- The data length is in the row's range (30_encoding.md R83). -/
def OpRow.admits (r : OpRow) (d : List Byte) : Bool :=
  decide (r.minLen ≤ d.length) && decide (d.length ≤ r.maxLen)

/-- Decoding, total (30_encoding.md R86). A vector of more than DATA_MAX bytes, which the port cannot
carry (R80), is outside every row's range and so ILLEGAL by R85 (b) (DEDUCED; log 7). -/
def decode (w : Word) (d : List Byte) : Decoded :=
  match opcodeRows.find? (fun r => r.selects w) with
  | none => .illegal .noRowMatches
  | some r => if r.admits d then .instr (r.build w d) else .illegal .dataLength

/-- Decoding of a command at the port. -/
def Cmd.decode (c : Cmd) : Decoded := Sys2Proof.decode c.word c.data

/-- A command word by its fields (30_encoding.md R81): ID16 in 31:16, ARG8 in 15:8, RSV in 7:4, OP in 3:0. -/
def fieldsWord (id16 : Ident) (arg8 : Byte) (rsv op : BitVec 4) : Word := id16 ++ arg8 ++ rsv ++ op

/-- The word of a command: RSV must be 0 (30_encoding.md R81). -/
def commandWord (id16 : Ident) (arg8 : Byte) (op : BitVec 4) : Word := fieldsWord id16 arg8 0#4 op

/-- The command that stands for an instruction: the opcodes of 30_encoding.md R83 in the fields of R81. -/
def encode : Instr → Cmd
  | .crc8 d => ⟨commandWord 0#16 0#8 0x1#4, d⟩
  | .escape cap d => ⟨commandWord 0#16 cap 0x2#4, d⟩
  | .unescape d => ⟨commandWord 0#16 0#8 0x3#4, d⟩
  | .queue ident flags d => ⟨commandWord ident flags 0x4#4, d⟩
  | .pump => ⟨commandWord 0#16 0#8 0x5#4, []⟩
  | .ingest f => ⟨commandWord 0#16 0#8 0x6#4, f⟩
  | .connect => ⟨commandWord 0#16 0#8 0x7#4, []⟩
  | .disconnect => ⟨commandWord 0#16 0#8 0x8#4, []⟩
  | .readStatus => ⟨commandWord 0#16 0#8 0x9#4, []⟩

/-! ## The text form (30_encoding.md R89) -/

/-- n as `k` hexadecimal digits, capitals, most significant first. -/
def hexDigits : Nat → Nat → List Char
  | 0, _ => []
  | k + 1, n => hexDigits k (n / 16) ++ ["0123456789ABCDEF".toList.getD (n % 16) '0']

/-- A data vector in brackets, its bytes in hexadecimal with one space between two (R89). -/
def dataText (d : List Byte) : List Char :=
  ['['] ++ ((d.map fun b => hexDigits 2 b.toNat).intersperse [' ']).flatten ++ [']']

/-- The mnemonic of a command's row (30_encoding.md R83, R89). -/
def Instr.mnemonic : Instr → String
  | .crc8 _ => "CRC8"
  | .escape _ _ => "ESCAPE"
  | .unescape _ => "UNESCAPE"
  | .queue _ _ _ => "QUEUE"
  | .pump => "PUMP"
  | .ingest _ => "INGEST"
  | .connect => "CONNECT"
  | .disconnect => "DISCONNECT"
  | .readStatus => "READ_STATUS"

/-- A command's operands in text (R89). -/
def Instr.operandText : Instr → List Char
  | .crc8 d => [' '] ++ dataText d
  | .escape cap d => " cap=".toList ++ Nat.toDigits 10 cap.toNat ++ ", ".toList ++ dataText d
  | .unescape d => [' '] ++ dataText d
  | .queue ident flags d =>
    " id=0x".toList ++ hexDigits 4 ident.toNat ++ ", flags=0x".toList ++ hexDigits 2 flags.toNat ++
      ", ".toList ++ dataText d
  | .pump => []
  | .ingest f => [' '] ++ dataText f
  | .connect => []
  | .disconnect => []
  | .readStatus => []

/-- The text form of a command: the mnemonic and the operands (R89). R89 lines its operands up in columns: one space
stands here for each such gap (DESIGN CHOICE; log 18). -/
def Instr.text (i : Instr) : List Char := i.mnemonic.toList ++ i.operandText

/-- A raw command, illegal ones included: `.cmd 0xWWWWWWWW, [b0 b1 ...]` (R89). -/
def Cmd.rawText (c : Cmd) : List Char :=
  ".cmd 0x".toList ++ hexDigits 8 c.word.toNat ++ ", ".toList ++ dataText c.data

/-- The text form of what W and D decode to (R89); an illegal command is shown raw. -/
def Cmd.text (c : Cmd) : List Char :=
  match c.decode with
  | .instr i => i.text
  | .illegal _ => c.rawText

/-! ## A table word, as the host numbers it -/

/-- The shortest data vector the word's row admits, of zero bytes: the table gives a data vector no bits
(DESIGN CHOICE; log 8). -/
def shortestData (w : Word) : List Byte :=
  match opcodeRows.find? (fun r => r.selects w) with
  | none => []
  | some r => List.replicate r.minLen 0#8

/-- The command whose word has the low `nbits` bits of `w` and zeros above, with its shortest data vector. -/
def tableCmd (nbits w : Nat) : Cmd :=
  let word := BitVec.ofNat 32 (w % 2 ^ nbits)
  ⟨word, shortestData word⟩

/-- The instruction the decoder reads from a table word (none where it refuses). -/
def decodeTableWord (nbits w : Nat) : Option Instr :=
  match (tableCmd nbits w).decode with
  | .instr i => some i
  | .illegal _ => none

end Sys2Proof
end

