-- ==== Sys2Proof/Machine/State.lean ====
section
/-! DEFINITION. The machine's state (10_state.md R20), the environment's inputs and the block's outputs, the
reasons a step can stop, and reset (10_state.md R27, 70_reset_and_hazards.md R260). -/

namespace Sys2Proof.Machine

/-- A byte memory: (offset, byte) pairs at strictly rising offsets (`Memory.wf`); an offset not listed holds no
byte written since reset (`Memory.unlisted`). -/
abbrev Memory := List Host.Cell

/-- The two byte memories (20_memory.md R50). -/
inductive Buffer where
  | txb
  | rxb
  deriving DecidableEq, Repr

/-- The result codes of 30_encoding.md R91. The reserved codes 0xC to 0xE are never produced and have no
constructor. -/
inductive ResultCode where
  | ok
  | busy
  | notConnected
  | overflow
  | idle
  | sendExhausted
  | discarded
  | assembling
  | dispatched
  | checksumMismatch
  | runt
  | rxOverflow
  | illegal
  deriving DecidableEq, Repr

/-- The result of a command, `(code, value, data)` (30_encoding.md R90). -/
structure Result where
  code : ResultCode
  value : Byte
  data : List Byte
  deriving DecidableEq, Repr

/-- The events of the output trace (30_encoding.md R92). -/
inductive Event where
  | txChunk (bytes : List Byte)
  | rxPacket (ident : Ident) (flags : Byte) (payload : List Byte)
  | rxChecksumFail
  deriving DecidableEq, Repr

/-- The whole state. `txb` to `connected` are the spec's record (10_state.md R20); `config` is fixed at
elaboration (00_scope.md R7); the rest are the model's own fields: what the environment has in store for the
block, and what the block has put out. -/
structure State where
  /-- The parameters; no step writes them (log 4). -/
  config : Config
  /-- TXB, the transmit frame buffer. -/
  txb : Memory
  /-- tx_len, the length of the frame in TXB. -/
  txLen : BitVec 8
  /-- tx_sent, bytes of the frame already read out. -/
  txSent : BitVec 8
  /-- A frame is resident and not fully read out. -/
  pending : Bool
  /-- RXB, the reassembly buffer. -/
  rxb : Memory
  /-- rx_len, bytes held in RXB. -/
  rxLen : BitVec 8
  /-- The connection flag. -/
  connected : Bool
  /-- MODEL'S OWN: the commands the environment presents, oldest first (30_encoding.md R80; log 1). -/
  port : List Cmd
  /-- MODEL'S OWN: the transport's answers to come, oldest first (42_transmit.md R160; log 2). -/
  answers : List Resp
  /-- MODEL'S OWN: how many answers PUMP has drawn; the index of the free value (log 2). -/
  draws : Nat
  /-- MODEL'S OWN: the results so far, oldest first (30_encoding.md R90; log 3). -/
  results : List Result
  /-- MODEL'S OWN: the output trace, oldest first (30_encoding.md R92; log 3). -/
  trace : List Event
  deriving DecidableEq, Repr

/-- Where a rule would leave its own bounds. The spec asks for each of these; no run from reset reaches one. -/
inductive Fault where
  /-- MemRead or MemWrite outside the memory, at this offset and length: "a model must treat one as a fault"
  (20_memory.md R52). Raised by QUEUE, PUMP and INGEST. Safe. -/
  | outsideMemory (b : Buffer) (offset length : Nat)
  /-- A read of a buffer byte that nothing has written since reset: the treatment 10_state.md R28 allows.
  Raised by PUMP and INGEST. Safe (log 5). -/
  | unwrittenByte (b : Buffer) (offset : Nat)
  /-- A sequence index at or beyond its length: "a model must treat it as a fault" (00_scope.md R12).
  Raised by INGEST of an empty fragment, which no decoding yields. Safe (log 6). -/
  | outsideSequence (index : Nat)
  /-- A length difference below zero: "taken only where the rules guarantee that the result is at least 0"
  (00_scope.md R17). Raised by PUMP with pending = 1 and tx_sent > tx_len. Safe (log 6). -/
  | negativeDifference
  deriving DecidableEq, Repr

/-- Instructions without a meaning in this model. -/
inductive Refusal where
  /-- An instruction that has no meaning yet, by its mnemonic. Raised by no arm of exec: every command is
  modelled. Safe. -/
  | notModelled (mnemonic : String)
  deriving DecidableEq, Repr

/-- How a step ends. -/
abbrev Out := Host.Outcome State Fault Refusal

/-- The state after reset in a given configuration (10_state.md R27, 70_reset_and_hazards.md R260): the flags
and lengths are 0, TXB and RXB are unspecified (no byte written; log 5), no event, no result. -/
def State.resetWith (c : Config) : State :=
  { config := c
    txb := []
    txLen := 0#8
    txSent := 0#8
    pending := false
    rxb := []
    rxLen := 0#8
    connected := false
    port := []
    answers := []
    draws := 0
    results := []
    trace := [] }

/-- The state after reset in the reference configuration (00_scope.md R7; log 4). -/
def State.reset : State := State.resetWith Config.reference

end Sys2Proof.Machine
end

