-- ==== Sys2Proof/Machine/Ops.lean ====
section
/-! DEFINITION. The operations the meanings share: sequences (00_scope.md R12), the byte memories
(20_memory.md R52), the completion of a command (00_scope.md R13, R14; 30_encoding.md R90, R92) and the named
updates of State. THERE IS NO EXCEPTION TO TAKE AND NONE TO RETURN FROM: "The block has no exceptions, traps or
interrupts" and every error "is reported as its result code ..., and the command then ends"
(60_exceptions.md R230, R236); `State.complete` is that one shared operation. -/

namespace Sys2Proof.Machine

/-- Go on with a value, or stop with the fault. -/
def orFault {α : Type} (r : Except Fault α) (k : α → Out) : Out :=
  match r with
  | .ok a => k a
  | .error f => .fault f

/-! ## Byte sequences (00_scope.md R12) -/

/-- `s[i]`; out of range it faults, as R12 asks. -/
def seqAt (s : List Byte) (i : Nat) : Except Fault Byte :=
  match s[i]? with
  | some b => .ok b
  | none => .error (.outsideSequence i)

/-- `s[i..j)`: the bytes i to j-1, empty when j <= i. -/
def slice (s : List Byte) (i j : Nat) : List Byte := (s.take j).drop i

/-- A length as an 8-bit value (30_encoding.md R90; every length a rule reports is at most 255). -/
def len8 (n : Nat) : Byte := BitVec.ofNat 8 n

/-! ## The byte memories (20_memory.md R50, R52) -/

/-- What an offset that is not listed reads as: no byte, so a read of it faults (10_state.md R28; log 5). -/
def Memory.unlisted (_offset : Nat) : Option Byte := none

/-- The byte at an offset. -/
def Memory.get? : Memory → Nat → Option Byte
  | [], a => Memory.unlisted a
  | (k, v) :: m, a => if k = a then some v else Memory.get? m a

/-- Write one byte, keeping the offsets strictly rising. -/
def Memory.set : Memory → Nat → Byte → Memory
  | [], a, b => [(a, b)]
  | (k, v) :: m, a, b =>
    if a < k then (a, b) :: (k, v) :: m
    else if a = k then (a, b) :: m
    else (k, v) :: Memory.set m a b

/-- Write a sequence at rising offsets. -/
def Memory.write : Memory → Nat → List Byte → Memory
  | m, _, [] => m
  | m, a, b :: s => Memory.write (Memory.set m a b) (a + 1) s

/-- The canonical form: strictly rising offsets. No entry can equal what an unlisted offset reads as, which
is no byte at all. -/
def Memory.wf : Memory → Bool
  | [] => true
  | [_] => true
  | (j, _) :: (k, w) :: m => decide (j < k) && Memory.wf ((k, w) :: m)

/-- The n bytes at offsets a, a+1, …; an unwritten one faults. -/
def Memory.bytes (b : Buffer) (m : Memory) : Nat → Nat → Except Fault (List Byte)
  | _, 0 => .ok []
  | a, n + 1 =>
    match m.get? a with
    | none => .error (.unwrittenByte b a)
    | some v =>
      match Memory.bytes b m (a + 1) n with
      | .ok s => .ok (v :: s)
      | .error f => .error f

/-- `MemRead(M, a, n)` of a memory of `size` bytes (20_memory.md R52). -/
def memRead (b : Buffer) (size : Nat) (m : Memory) (a n : Nat) : Except Fault (List Byte) :=
  if a + n ≤ size then m.bytes b a n else .error (.outsideMemory b a n)

/-- `MemWrite(M, a, n, s)` with `n = len(s)` (20_memory.md R52). -/
def memWrite (b : Buffer) (size : Nat) (m : Memory) (a : Nat) (s : List Byte) : Except Fault Memory :=
  if a + s.length ≤ size then .ok (m.write a s) else .error (.outsideMemory b a s.length)

/-! ## Named updates of State -/

/-- `result <- (code, value, data)`: the command's one result (00_scope.md R13, 30_encoding.md R90). -/
def State.complete (s : State) (code : ResultCode) (value : Byte) (data : List Byte) : State :=
  { s with results := s.results ++ [⟨code, value, data⟩] }

/-- `emit E`: the event is appended to the trace (00_scope.md R13, 30_encoding.md R92). -/
def State.emit (s : State) (e : Event) : State :=
  { s with trace := s.trace ++ [e] }

/-- The port hands over its oldest command; these remain (30_encoding.md R80). -/
def State.withPort (s : State) (rest : List Cmd) : State :=
  { s with port := rest }

/-- The transport's answer to this PUMP: the next one listed, or a free value (42_transmit.md R160; log 2). -/
def State.resp (s : State) : Resp :=
  match s.answers with
  | [] => Config.transportAnswer s.draws
  | r :: _ => r

/-- One answer has been drawn. -/
def State.drawn (s : State) : State :=
  { s with answers := s.answers.tail, draws := s.draws + 1 }

/-- QUEUE's commit: the frame is in TXB, nothing of it is sent, and it is pending (42_transmit.md R157). -/
def State.commitFrame (s : State) (txb : Memory) (length : Nat) : State :=
  { s with txb := txb, txLen := len8 length, txSent := 0#8, pending := true }

/-- PUMP's advance: tx_sent takes the new value, and pending clears when it equals tx_len
(42_transmit.md R164, R165). -/
def State.advance (s : State) (newSent : Nat) : State :=
  { s with
    txSent := len8 newSent
    pending := if newSent = s.txLen.toNat then false else s.pending }

/-- A fragment has been stored in RXB (43_receive.md R183, R184). -/
def State.withRxb (s : State) (rxb : Memory) : State :=
  { s with rxb := rxb }

/-- `S.rx_len <- n`. -/
def State.withRxLen (s : State) (n : Nat) : State :=
  { s with rxLen := len8 n }

/-- CONNECT's write (44_lifecycle.md R210). -/
def State.linkUp (s : State) : State :=
  { s with connected := true }

/-- DISCONNECT's writes (44_lifecycle.md R211). -/
def State.linkDown (s : State) : State :=
  { s with connected := false, pending := false, rxLen := 0#8 }

/-- An illegal command: no state change, no event, the result `(ILLEGAL, 0, [])` (30_encoding.md R85). -/
def execIllegal (s : State) : Out :=
  .next (s.complete .illegal 0#8 [])

/-- The draw's meaning in terms of the attempts it summarises: ACCEPT when the transport took the chunk within
RETRY_MAX attempts, EXHAUST when it refused all of them (42_transmit.md R160). The attempts themselves are
outside the block (00_scope.md R5): a step reads the draw, never this. -/
def Resp.ofAttempts (retryMax : Nat) (attempts : List Bool) : Resp :=
  if (attempts.take retryMax).any id then .accept else .exhaust

end Sys2Proof.Machine
end

