-- ==== Sys2Proof/Machine/Flags.lean ====
section
/-! DEFINITION. The STATUS register (10_state.md R25), the numbers of the result codes (30_encoding.md R91) and
the host's two readings of a result (30_encoding.md R89). No command has another flag side effect. -/

namespace Sys2Proof.Machine

/-- A bit as a byte. -/
def bit8 (b : Bool) : Byte := if b then 1#8 else 0#8

/-- RX_ACTIVE: 1 exactly when rx_len is not 0 (10_state.md R25). -/
def State.rxActive (s : State) : Bool := s.rxLen != 0#8

/-- STATUS: PENDING in bit 0, CONNECTED in bit 1, RX_ACTIVE in bit 2, bits 7:3 zero
(10_state.md R25, 44_lifecycle.md R214). -/
def State.status (s : State) : Byte :=
  bit8 s.pending ||| (bit8 s.connected <<< 1) ||| (bit8 s.rxActive <<< 2)

/-- The 4-bit number of a result code (30_encoding.md R91). -/
def ResultCode.bits : ResultCode → BitVec 4
  | .ok => 0x0#4
  | .busy => 0x1#4
  | .notConnected => 0x2#4
  | .overflow => 0x3#4
  | .idle => 0x4#4
  | .sendExhausted => 0x5#4
  | .discarded => 0x6#4
  | .assembling => 0x7#4
  | .dispatched => 0x8#4
  | .checksumMismatch => 0x9#4
  | .runt => 0xA#4
  | .rxOverflow => 0xB#4
  | .illegal => 0xF#4

/-- ISBUSY's answer: bit 0 of READ_STATUS's value (30_encoding.md R89). -/
def Result.isBusy (r : Result) : Bool := r.value.getLsbD 0

/-- `queuePacketTransmission`'s Boolean: the result code of QUEUE is OK (30_encoding.md R89). -/
def Result.accepted (r : Result) : Bool := r.code == .ok

/-- The error results (60_exceptions.md R231); IDLE, DISCARDED and ASSEMBLING are normal results. -/
def ResultCode.isError : ResultCode → Bool
  | .busy => true
  | .notConnected => true
  | .overflow => true
  | .sendExhausted => true
  | .checksumMismatch => true
  | .runt => true
  | .rxOverflow => true
  | .illegal => true
  | .ok => false
  | .idle => false
  | .discarded => false
  | .assembling => false
  | .dispatched => false

end Sys2Proof.Machine
end

