-- ==== Sys2Proof/Machine/Lifecycle.lean ====
section
/-! DEFINITION. The link-state inputs CONNECT (44_lifecycle.md R210) and DISCONNECT (R211), and the status read
READ_STATUS (R214). -/

namespace Sys2Proof.Machine

/-- CONNECT (44_lifecycle.md R210). -/
def execConnect (s : State) : Out :=
  .next (s.linkUp.complete .ok 0#8 [])

/-- DISCONNECT: tx_len, tx_sent, TXB and RXB keep their values (44_lifecycle.md R211). -/
def execDisconnect (s : State) : Out :=
  .next (s.linkDown.complete .ok 0#8 [])

/-- READ_STATUS: `(OK, STATUS, [tx_len, tx_sent, rx_len])` (44_lifecycle.md R214). -/
def execReadStatus (s : State) : Out :=
  .next (s.complete .ok s.status [s.txLen, s.txSent, s.rxLen])

end Sys2Proof.Machine
end

