-- ==== Sys2Proof/Machine/Operands.lean ====
section
/-! DEFINITION. The protocol's fixed constants (00_scope.md R8), the identifier's bytes (20_memory.md R56, R57),
the classes of fragments (43_receive.md R182) and the size of a chunk (42_transmit.md R162). -/

namespace Sys2Proof.Machine

/-- DELIM, the frame delimiter (00_scope.md R8, 30_encoding.md R71). -/
def delim : Byte := 0xC0#8

/-- ESC, the escape byte (R8, R71). -/
def esc : Byte := 0xDB#8

/-- ESC_DELIM, the second byte of an escaped DELIM (R8, R71). -/
def escDelim : Byte := 0xDC#8

/-- ESC_ESC, the second byte of an escaped ESC (R8, R71). -/
def escEsc : Byte := 0xDD#8

/-- FRAME_OVERHEAD: a frame's bytes beside the escaped payload (00_scope.md R10). -/
def frameOverhead : Nat := 6

/-- IsRPC's bit of the flags byte; the block never reads it (30_encoding.md R74). -/
def isRpcMask : Byte := 0x01#8

/-- `id[7:0]`, first on the wire (20_memory.md R56). -/
def identLo (ident : Ident) : Byte := ident.extractLsb' 0 8

/-- `id[15:8]`, second on the wire (20_memory.md R56). -/
def identHi (ident : Ident) : Byte := ident.extractLsb' 8 8

/-- `zext_16(u[0]) | (zext_16(u[1]) << 8)` (20_memory.md R57). -/
def identOf (lo hi : Byte) : Ident := lo.setWidth 16 ||| (hi.setWidth 16 <<< 8)

/-- The classes of a fragment (43_receive.md R182). -/
inductive FragmentClass where
  | leading
  | continuation
  | stray
  deriving DecidableEq, Repr

/-- The class, by the fragment's first byte and rx_len alone (43_receive.md R182). -/
def classify (first : Byte) (rxLen : BitVec 8) : FragmentClass :=
  if first = delim then .leading
  else if 0 < rxLen.toNat then .continuation
  else .stray

/-- `min(S.tx_len - S.tx_sent, CHUNK_SIZE)`; the difference is taken only where it is at least 0
(42_transmit.md R162, 00_scope.md R17; log 6). -/
def chunkLen (s : State) : Except Fault Nat :=
  if s.txSent.toNat ≤ s.txLen.toNat then .ok (min (s.txLen.toNat - s.txSent.toNat) s.config.chunkSize)
  else .error .negativeDifference

end Sys2Proof.Machine
end

