-- ==== Sys2Proof/Machine/Codec.lean ====
section
/-! DEFINITION. The SLIP-style codec (41_codec.md R120 to R124) and the commands ESCAPE (R126) and
UNESCAPE (R134). -/

namespace Sys2Proof.Machine

/-- `esc_byte(b)` (41_codec.md R120). -/
def escByte (b : Byte) : List Byte :=
  if b = delim then [esc, escDelim]
  else if b = esc then [esc, escEsc]
  else [b]

/-- `esc(s)` (41_codec.md R121). -/
def escSeq : List Byte → List Byte
  | [] => []
  | b :: s => escByte b ++ escSeq s

/-- The outcome of escaping with a capacity (41_codec.md R122). -/
inductive EscOutcome where
  | ok (out : List Byte)
  | overflow (pre : List Byte)
  deriving DecidableEq, Repr

/-- R122's loop, with the output so far: it stops before writing any byte of the form that does not fit. -/
def escCapFrom (cap : Nat) : List Byte → List Byte → EscOutcome
  | out, [] => .ok out
  | out, b :: s =>
    if cap < out.length + (escByte b).length then .overflow out
    else escCapFrom cap (out ++ escByte b) s

/-- `esc_cap(s, cap)` (41_codec.md R122). -/
def escCap (s : List Byte) (cap : Nat) : EscOutcome := escCapFrom cap [] s

/-- `replace_pass(s, x, y, r)` (41_codec.md R123). -/
def replacePass (x y r : Byte) : List Byte → List Byte
  | [] => []
  | [a] => [a]
  | a :: b :: s =>
    if a = x ∧ b = y then r :: replacePass x y r s
    else a :: replacePass x y r (b :: s)

/-- `unesc(s)`: two passes, the order of which matters (41_codec.md R124, R125). -/
def unesc (s : List Byte) : List Byte :=
  replacePass esc escEsc esc (replacePass esc escDelim delim s)

/-- The left-to-right decoder `single(s)` (41_codec.md R129). -/
def singlePass : List Byte → List Byte
  | [] => []
  | [a] => [a]
  | a :: b :: s =>
    if a = esc ∧ b = escDelim then delim :: singlePass s
    else if a = esc ∧ b = escEsc then esc :: singlePass s
    else a :: singlePass (b :: s)

/-- ESCAPE cap=n, [D] (41_codec.md R126). -/
def execEscape (cap : Byte) (data : List Byte) (s : State) : Out :=
  match escCap data cap.toNat with
  | .ok out => .next (s.complete .ok (len8 out.length) out)
  | .overflow pre => .next (s.complete .overflow (len8 pre.length) pre)

/-- UNESCAPE [D] (41_codec.md R134). -/
def execUnescape (data : List Byte) (s : State) : Out :=
  .next (s.complete .ok (len8 (unesc data).length) (unesc data))

end Sys2Proof.Machine
end

