-- ==== Sys2Proof/Machine/Receive.lean ====
section
/-! DEFINITION. The receive engine: INGEST (43_receive.md R180 to R196). -/

namespace Sys2Proof.Machine

/-- A fragment that does not fit: the partial frame is abandoned, no byte of RXB is written, no event
(43_receive.md R183, R184). -/
def rxOverflow (s : State) : Out :=
  .next ((s.withRxLen 0).complete .rxOverflow 0#8 [])

/-- A complete frame with at least 4 unescaped bytes u, of length L in RXB: the checksum over every byte of u but
the last, then dispatch or reject (43_receive.md R190 to R194). -/
def validate (u : List Byte) (length : Nat) (s : State) : Out :=
  orFault (seqAt u (u.length - 1)) fun rcv =>
  if crc8 (slice u 0 (u.length - 1)) = rcv then
    orFault (seqAt u 0) fun u0 =>
    orFault (seqAt u 1) fun u1 =>
    orFault (seqAt u 2) fun u2 =>
      .next (((s.emit (.rxPacket (identOf u0 u1) u2 (slice u 3 (u.length - 1)))).withRxLen
        (if s.config.rxClearOnDispatch then 0 else length)).complete .dispatched (len8 (u.length - 4)) [])
  else .next (((s.withRxLen 0).emit .rxChecksumFail).complete .checksumMismatch 0#8 [])

/-- A complete frame's unescaped span u: a runt when it is shorter than 4 bytes, else validated
(43_receive.md R189, R190). -/
def frameComplete (u : List Byte) (length : Nat) (s : State) : Out :=
  if u.length < 4 then .next ((s.withRxLen 0).complete .runt (len8 u.length) [])
  else validate u length s

/-- The fragment is stored and RXB holds `length` bytes: the completion test, which looks only at the last byte
and wants two at least (43_receive.md R186), then the span between the delimiters, unescaped whole
(R187, R188). -/
def afterStore (length : Nat) (s : State) : Out :=
  let wait : Out := .next ((s.withRxLen length).complete .assembling (len8 length) [])
  if length < 2 then wait
  else
    orFault (memRead .rxb s.config.rxCap s.rxb (length - 1) 1) fun last =>
    if last ≠ [delim] then wait
    else
      orFault (memRead .rxb s.config.rxCap s.rxb 1 (length - 2)) fun span =>
      frameComplete (unesc span) length s

/-- INGEST [F] (43_receive.md R196). It does not read `connected`. -/
def execIngest (fragment : List Byte) (s : State) : Out :=
  orFault (seqAt fragment 0) fun first =>
  match classify first s.rxLen with
  | .leading =>
    if s.config.rxCap < fragment.length then rxOverflow s
    else
      orFault (memWrite .rxb s.config.rxCap s.rxb 0 fragment) fun rxb =>
      afterStore fragment.length (s.withRxb rxb)
  | .continuation =>
    if s.config.rxCap < s.rxLen.toNat + fragment.length then rxOverflow s
    else
      orFault (memWrite .rxb s.config.rxCap s.rxb s.rxLen.toNat fragment) fun rxb =>
      afterStore (s.rxLen.toNat + fragment.length) (s.withRxb rxb)
  | .stray => .next (s.complete .discarded 0#8 [])

end Sys2Proof.Machine
end

