-- ==== Sys2Proof/Machine/Transmit.lean ====
section
/-! DEFINITION. The transmit engine: QUEUE (42_transmit.md R150 to R158) and PUMP (R160 to R166). -/

namespace Sys2Proof.Machine

/-- `[id[7:0], id[15:8], flags] ++ e`: the identifier and flags are not escaped (42_transmit.md R154). -/
def frameBody (ident : Ident) (flags : Byte) (e : List Byte) : List Byte :=
  [identLo ident, identHi ident, flags] ++ e

/-- `[0xC0] ++ body ++ [crc8(body), 0xC0]`: the checksum is over the body as it is on the wire and is itself
not escaped (42_transmit.md R154, R155; 30_encoding.md R70, R72). -/
def frameOf (ident : Ident) (flags : Byte) (e : List Byte) : List Byte :=
  [delim] ++ frameBody ident flags e ++ [crc8 (frameBody ident flags e), delim]

/-- QUEUE id, flags, [D]: the tests in the order of R151, the encoder's capacity of R156, the commit of R157
(42_transmit.md R158). -/
def execQueue (ident : Ident) (flags : Byte) (data : List Byte) (s : State) : Out :=
  if s.pending then .next (s.complete .busy 0#8 [])
  else if !s.connected then .next (s.complete .notConnected 0#8 [])
  else
    match escCap data (s.config.txCap - frameOverhead) with
    | .overflow _ => .next (s.complete .overflow 0#8 [])
    | .ok e =>
      orFault (memWrite .txb s.config.txCap s.txb 0 (frameOf ident flags e)) fun txb =>
        .next ((s.commitFrame txb (frameOf ident flags e).length).complete .ok
          (len8 (frameOf ident flags e).length) [])

/-- What the transport's answer decides: the event and the result code (42_transmit.md R163). -/
def offerChunk (r : Resp) (chunk : List Byte) (s : State) : State × ResultCode :=
  match r with
  | .accept => (s.emit (.txChunk chunk), .ok)
  | .exhaust => (s, .sendExhausted)

/-- PUMP (42_transmit.md R166). tx_sent advances and pending clears at the end of the frame whatever the answer
was (R164, R165). -/
def execPump (s : State) : Out :=
  if s.pending then
    orFault (chunkLen s) fun n =>
    orFault (memRead .txb s.config.txCap s.txb s.txSent.toNat n) fun chunk =>
      let offered := offerChunk s.resp chunk s.drawn
      .next ((offered.1.advance (s.txSent.toNat + n)).complete offered.2 (len8 n) [])
  else .next (s.complete .idle 0#8 [])

end Sys2Proof.Machine
end

