-- ==== Sys2Proof/Machine/Dispatch.lean ====
section
/-! DEFINITION. One arm per command (30_encoding.md R83). -/

namespace Sys2Proof.Machine

/-- What a command does: every arm is one direct call of its meaning. -/
def exec (i : Instr) (s : State) : Host.Outcome State Fault Refusal :=
  match i with
  | .crc8 data => Sys2Proof.Machine.execCrc8 data s
  | .escape cap data => Sys2Proof.Machine.execEscape cap data s
  | .unescape data => Sys2Proof.Machine.execUnescape data s
  | .queue ident flags data => Sys2Proof.Machine.execQueue ident flags data s
  | .pump => Sys2Proof.Machine.execPump s
  | .ingest fragment => Sys2Proof.Machine.execIngest fragment s
  | .connect => Sys2Proof.Machine.execConnect s
  | .disconnect => Sys2Proof.Machine.execDisconnect s
  | .readStatus => Sys2Proof.Machine.execReadStatus s

end Sys2Proof.Machine
end

