-- ==== Sys2Proof/Machine/Step.lean ====
section
/-! DEFINITION. One step: the oldest command at the port is taken, decoded and executed
(00_scope.md R14, 30_encoding.md R80, R86). -/

namespace Sys2Proof.Machine

/-- One command, from its words (30_encoding.md R85, R86). -/
def execCmd (c : Cmd) (s : State) : Out :=
  match c.decode with
  | .instr i => exec i s
  | .illegal _ => execIllegal s

/-- One step. With no command at the port the block is idle and its state persists (60_exceptions.md R243). -/
def step (s : State) : Host.Outcome State Fault Refusal :=
  match s.port with
  | [] => .next s
  | c :: rest => execCmd c (s.withPort rest)

/-- s with the table word's command presented before every other command at the port, so that the very next
step runs it (log 8). -/
def State.withFetchWord (s : State) (nbits w : Nat) : State :=
  s.withPort (tableCmd nbits w :: s.port)

end Sys2Proof.Machine
end

