-- ==== Sys2Proof/Safety.lean ====
section
/-! DEFINITION. What counts as a safe state and a safe run: the invariants of 10_state.md R29 and R30 with what
the spec says each field and memory can hold, sequences of commands, and runs from reset
(70_reset_and_hazards.md R271). -/

namespace Sys2Proof.Machine

/-- Memory m holds the sequence s at offset a. -/
abbrev Memory.Holds (m : Memory) (a : Nat) (s : List Byte) : Prop :=
  ∀ k < s.length, m.get? (a + k) = s[k]?

/-- Every byte below n has been written. -/
abbrev Memory.Written (m : Memory) (n : Nat) : Prop := ∀ a < n, (m.get? a).isSome = true

/-- No byte at or above `size` is held (20_memory.md R50). -/
abbrev Memory.Within (m : Memory) (size : Nat) : Prop := ∀ c ∈ m, c.1 < size

/-- What holds after every command (10_state.md R29, R30), with the ranges of 10_state.md R20, the sizes of
20_memory.md R50, the canonical form of the memories, and what R28 says of unwritten bytes. -/
structure State.Inv (s : State) : Prop where
  txb_wf : s.txb.wf = true
  rxb_wf : s.rxb.wf = true
  /-- 20_memory.md R50. -/
  txb_within : s.txb.Within s.config.txCap
  rxb_within : s.rxb.Within s.config.rxCap
  /-- 10_state.md R20: tx_len in 0..TX_CAP. -/
  txLen_le : s.txLen.toNat ≤ s.config.txCap
  /-- tx_sent never passes tx_len. -/
  txSent_le : s.txSent.toNat ≤ s.txLen.toNat
  /-- R29, first clause. -/
  pending_connected : s.pending = true → s.connected = true
  /-- R29, second clause. -/
  pending_len : s.pending = true → 6 ≤ s.txLen.toNat
  /-- R29, third clause. -/
  pending_sent : s.pending = true → s.txSent.toNat < s.txLen.toNat
  /-- R28: while a frame is pending, every byte of it has been written. -/
  pending_written : s.pending = true → s.txb.Written s.txLen.toNat
  /-- R29, fourth clause. -/
  pending_delims : s.pending = true →
    s.txb.get? 0 = some delim ∧ s.txb.get? (s.txLen.toNat - 1) = some delim
  /-- R30, first clause. -/
  rxLen_le : s.rxLen.toNat ≤ s.config.rxCap
  /-- R28: every byte below rx_len has been written. -/
  rxb_written : s.rxb.Written s.rxLen.toNat
  /-- R30, second clause. -/
  rx_leading : 0 < s.rxLen.toNat → s.rxb.get? 0 = some delim
  /-- R30, third clause. -/
  rx_incomplete : s.config.rxClearOnDispatch = true → 2 ≤ s.rxLen.toNat →
    s.rxb.get? (s.rxLen.toNat - 1) ≠ some delim

/-- Commands one after the other, stopping at the first that does not answer a next state. -/
def execAll : List Instr → State → Out
  | [], s => .next s
  | i :: is, s =>
    match exec i s with
    | .next t => execAll is t
    | .fault f => .fault f
    | .refused r => .refused r

/-- The start of a run: reset in configuration c, with the commands and the transport's answers that the
environment has in store (70_reset_and_hazards.md R271). -/
def State.start (c : Config) (cmds : List Cmd) (answers : List Resp) : State :=
  { State.resetWith c with port := cmds, answers := answers }

/-- n steps of a run. -/
def runOf (c : Config) (cmds : List Cmd) (answers : List Resp) (n : Nat) : Out :=
  Sys2Proof.core.run n (State.start c cmds answers)

/-- What RXB[0 .. L) holds once the fragment F is stored, for a leading fragment and for a continuation
(43_receive.md R182 to R184); the bytes already held are what RXB reads as below rx_len. -/
def State.Accumulates (s : State) (fragment buf : List Byte) : Prop :=
  (fragment.head? = some delim ∧ buf = fragment) ∨
  (fragment.head? ≠ some delim ∧ fragment ≠ [] ∧ 0 < s.rxLen.toNat ∧
    ∃ old, old.length = s.rxLen.toNat ∧ s.rxb.Holds 0 old ∧ buf = old ++ fragment)

/-- A sequence holds no pair ESC, ESC_DELIM and no pair ESC, ESC_ESC (41_codec.md R131, 43_receive.md R199). -/
def NoEscapePair (s : List Byte) : Prop :=
  ∀ k, s[k]? = some esc → s[k + 1]? ≠ some escDelim ∧ s[k + 1]? ≠ some escEsc

/-- Two states that agree in everything a command other than READ_STATUS may read: buffer bytes at or beyond the
lengths, and the transmit counters and bytes while nothing is pending, are left out (10_state.md R28,
70_reset_and_hazards.md R261, 92_eei_decisions.md D38). -/
structure State.Agrees (s t : State) : Prop where
  config : s.config = t.config
  pending : s.pending = t.pending
  connected : s.connected = t.connected
  rxLen : s.rxLen = t.rxLen
  rxb : ∀ a < s.rxLen.toNat, s.rxb.get? a = t.rxb.get? a
  txLen : s.pending = true → s.txLen = t.txLen
  txSent : s.pending = true → s.txSent = t.txSent
  txb : s.pending = true → ∀ a < s.txLen.toNat, s.txb.get? a = t.txb.get? a
  port : s.port = t.port
  answers : s.answers = t.answers
  draws : s.draws = t.draws
  results : s.results = t.results
  trace : s.trace = t.trace

end Sys2Proof.Machine
end

