-- ==== Sys2Proof/Certificates/Slice0/Obligations.lean ====
section
/-! DEFINITION. The statements about the model, from the spec's numbered rules. A statement about a command's
effect gives the whole next state as an update of s, so every field it does not name is unchanged: that is its
frame. `⟨code, value, data⟩` is a result (30_encoding.md R90). `results` and `trace` are where the model records results
and events (log 3); `port`, `answers` and `draws` are the environment's inputs (log 1, log 2). Every configuration is
in the ranges of 00_scope.md R7 by its type, so no statement assumes that. -/

open Sys2Proof Sys2Proof.Machine

/-! ## Encoding and decoding -/

/-- SANITY. Words written out from the tables of 30_encoding.md R81, R83 and R84, one for each command, and illegal
ones, with what each decodes to (95_test_vectors.md 2.1). -/
def Obligations.DecodesWordsOfTheTable : Prop :=
  decode 0x00000001#32 [] = .instr (.crc8 []) ∧
  decode 0x0000FF02#32 [0x01#8] = .instr (.escape 0xFF#8 [0x01#8]) ∧
  decode 0x00000003#32 [0xDB#8] = .instr (.unescape [0xDB#8]) ∧
  decode 0x12340104#32 [0xC0#8, 0x01#8] = .instr (.queue 0x1234#16 0x01#8 [0xC0#8, 0x01#8]) ∧
  decode 0x00000005#32 [] = .instr .pump ∧
  decode 0x00000006#32 [0xC0#8] = .instr (.ingest [0xC0#8]) ∧
  decode 0x00000007#32 [] = .instr .connect ∧
  decode 0x00000008#32 [] = .instr .disconnect ∧
  decode 0x00000009#32 [] = .instr .readStatus ∧
  decode 0x00000000#32 [] = .illegal .noRowMatches ∧
  decode 0x0000000A#32 [] = .illegal .noRowMatches ∧
  decode 0x00000011#32 [0x01#8] = .illegal .noRowMatches ∧
  decode 0xFFFFFFF4#32 [] = .illegal .noRowMatches ∧
  decode 0x00000006#32 [] = .illegal .dataLength ∧
  decode 0x00000005#32 [0x00#8] = .illegal .dataLength

/-- HEADLINE. Decoding the words of a well-formed command gives the command back, with every operand at every
value (30_encoding.md R81 to R84, R86). -/
def Obligations.DecodeInvertsEncode : Prop :=
  ∀ i : Instr, i.wf = true → (encode i).decode = .instr i

/-- A command at the port that decodes to i is the encoding of i, and i is well formed: no two command words
stand for one command (30_encoding.md R81 to R84, R86). -/
def Obligations.OneWordForEachCommand : Prop :=
  ∀ (c : Cmd) (i : Instr), c.decode = .instr i → encode i = c ∧ i.wf = true

/-- R85: which commands are illegal, in terms of the fields of R81 (the decoder itself uses the masks of R84), and
that an illegal command changes nothing and answers `(ILLEGAL, 0, [])`. -/
def Obligations.IllegalCommands : Prop :=
  (∀ c : Cmd, c.data.length ≤ 255 →
    ((∃ why, c.decode = .illegal why) ↔
      opField c.word = 0x0#4 ∨ 0xA ≤ (opField c.word).toNat ∨
      rsvField c.word ≠ 0#4 ∨
      (arg8Field c.word ≠ 0#8 ∧ opField c.word ≠ 0x2#4 ∧ opField c.word ≠ 0x4#4) ∨
      (identField c.word ≠ 0#16 ∧ opField c.word ≠ 0x4#4) ∨
      (c.data ≠ [] ∧ opField c.word ∈ [0x5#4, 0x7#4, 0x8#4, 0x9#4]) ∨
      (c.data = [] ∧ opField c.word = 0x6#4))) ∧
  ∀ (s : State) (c : Cmd) (why : Illegal), c.decode = .illegal why →
    execCmd c s = .next { s with results := s.results ++ [⟨.illegal, 0#8, []⟩] }

/-- The match and mask table, and that no two of its rows match the same word (30_encoding.md R84). -/
def Obligations.NoTwoRowsMatchOneWord : Prop :=
  (opcodeRows.map fun r => (r.mnemonic, r.pattern, r.mask)) =
    [("CRC8", 0x00000001#32, 0xFFFFFFFF#32), ("ESCAPE", 0x00000002#32, 0xFFFF00FF#32),
     ("UNESCAPE", 0x00000003#32, 0xFFFFFFFF#32), ("QUEUE", 0x00000004#32, 0x000000FF#32),
     ("PUMP", 0x00000005#32, 0xFFFFFFFF#32), ("INGEST", 0x00000006#32, 0xFFFFFFFF#32),
     ("CONNECT", 0x00000007#32, 0xFFFFFFFF#32), ("DISCONNECT", 0x00000008#32, 0xFFFFFFFF#32),
     ("READ_STATUS", 0x00000009#32, 0xFFFFFFFF#32)] ∧
  opcodeRows.Pairwise fun r r' =>
    ∀ w : Word, ¬ (w &&& r.mask = r.pattern ∧ w &&& r'.mask = r'.pattern)

/-! ## The step -/

/-- The oldest command at the port, where it decodes to i, is what a step executes; the step takes it off the port
and does nothing else around i; an illegal one gets its result (00_scope.md R14, 30_encoding.md R80, R85, R86). That
the commands stand in a list `port` is the model's choice (log 1). -/
def Obligations.StepRunsTheDecodedCommand : Prop :=
  (∀ (s : State) (c : Cmd) (rest : List Cmd) (i : Instr),
    s.port = c :: rest → c.decode = .instr i → step s = exec i { s with port := rest }) ∧
  ∀ (s : State) (c : Cmd) (rest : List Cmd) (why : Illegal),
    s.port = c :: rest → c.decode = .illegal why → step s = execIllegal { s with port := rest }

/-- With no command presented the block's state persists unchanged (60_exceptions.md R243); `port` is the model's own
input (log 1). -/
def Obligations.IdleBlockKeepsItsState : Prop :=
  ∀ s : State, s.port = [] → step s = .next s

/-! ## Reset and the invariant -/

/-- R27, R260: after reset, in every configuration, the flags and lengths are 0, no event and no result has been
produced, STATUS reads 0x00 and READ_STATUS returns `(OK, 0x00, [00 00 00])`. The contents of TXB and RXB are
unspecified: nothing is said of them. -/
def Obligations.ResetLeavesTheSpecsValues : Prop :=
  ∀ c : Config,
    (State.resetWith c).pending = false ∧ (State.resetWith c).connected = false ∧
    (State.resetWith c).txLen = 0#8 ∧ (State.resetWith c).txSent = 0#8 ∧
    (State.resetWith c).rxLen = 0#8 ∧
    (State.resetWith c).trace = [] ∧ (State.resetWith c).results = [] ∧
    (State.resetWith c).status = 0x00#8 ∧
    exec .readStatus (State.resetWith c) =
      .next { State.resetWith c with results := [⟨.ok, 0x00#8, [0x00#8, 0x00#8, 0x00#8]⟩] }

/-- The invariant holds at reset in every configuration, whatever commands and answers the environment has
in store, and at the reference reset. -/
def Obligations.ResetMeetsTheInvariant : Prop :=
  State.reset.Inv ∧
  ∀ (c : Config) (cmds : List Cmd) (answers : List Resp),
    (State.start c cmds answers).Inv

/-- HEADLINE. Every step keeps the invariant: R29, R30, the ranges of R20, the canonical form and the size of both
memories, and that every byte a command can read has been written (R28). -/
def Obligations.EveryStepKeepsTheInvariant : Prop :=
  ∀ s t : State, s.Inv → step s = .next t → t.Inv

/-- HEADLINE. In a state that meets the invariant no step stops: no byte that was not written after reset is read
(10_state.md R28), no access leaves its memory or sequence, no command is refused (60_exceptions.md R232). That such
accesses would fault is the model's choice among those the spec allows (log 5, log 6). -/
def Obligations.NoStepStops : Prop :=
  ∀ s : State, s.Inv → ∃ t, step s = .next t

/-- A run is reset followed by a finite sequence of commands: for every configuration, every sequence
and all answers of the transport, every command completes with exactly one result and none is left in flight
(70_reset_and_hazards.md R271). -/
def Obligations.RunsCompleteWithOneResultEach : Prop :=
  ∀ (c : Config) (cmds : List Cmd) (answers : List Resp),
    ∃ t, runOf c cmds answers cmds.length = .next t ∧
      t.port = [] ∧ t.results.length = cmds.length ∧ t.config = c ∧ t.Inv

/-- R29: the transmit invariants hold after every command of every run. -/
def Obligations.TransmitInvariants : Prop :=
  ∀ (c : Config) (cmds : List Cmd) (answers : List Resp) (n : Nat) (t : State),
    runOf c cmds answers n = .next t → t.pending = true →
      t.connected = true ∧
      6 ≤ t.txLen.toNat ∧ t.txLen.toNat ≤ c.txCap ∧
      t.txSent.toNat < t.txLen.toNat ∧
      t.txb.get? 0 = some 0xC0#8 ∧ t.txb.get? (t.txLen.toNat - 1) = some 0xC0#8

/-- R30: the receive invariants hold after every command of every run. -/
def Obligations.ReceiveInvariants : Prop :=
  ∀ (c : Config) (cmds : List Cmd) (answers : List Resp) (n : Nat) (t : State),
    runOf c cmds answers n = .next t →
      t.rxLen.toNat ≤ c.rxCap ∧
      (0 < t.rxLen.toNat → t.rxb.get? 0 = some 0xC0#8) ∧
      (c.rxClearOnDispatch = true → 2 ≤ t.rxLen.toNat →
        t.rxb.get? (t.rxLen.toNat - 1) ≠ some 0xC0#8)

/-! ## The CRC-8 generator -/

/-- R103: the equivalent form with the reflected constant 0x8C. -/
def Obligations.CrcEqualsItsReflectedForm : Prop :=
  ∀ c b : Byte, crc8Byte c b = crc8ByteReflected c b

/-- R104: the table as the spec prints it is T[i] = crc8_byte(0x00, i), and one look-up is one byte update. -/
def Obligations.CrcEqualsItsTableForm : Prop :=
  (∀ i : Byte, crcTableAt i = crc8Byte 0x00#8 i) ∧
  ∀ c b : Byte, crc8Byte c b = crcTableAt (c ^^^ b)

/-- R105: (a) zeros, (b) linearity, (c) residue, (d) every single-bit flip is detected. -/
def Obligations.CrcLaws : Prop :=
  (crc8 [] = 0x00#8 ∧ ∀ n, crc8 (List.replicate n 0x00#8) = 0x00#8) ∧
  (∀ a b : List Byte, a.length = b.length →
    crc8 (List.zipWith (fun x y => x ^^^ y) a b) = crc8 a ^^^ crc8 b) ∧
  (∀ s : List Byte, crc8 (s ++ [crc8 s]) = 0x00#8) ∧
  (∀ (s : List Byte) (k : Nat) (b : Byte) (j : Nat), s[k]? = some b → j < 8 →
    crc8 (s.set k (b ^^^ (1#8 <<< j))) ≠ crc8 s)

/-- R106: the CRC8 command. -/
def Obligations.Crc8Command : Prop :=
  (∀ d : List Byte, d.length ≤ 255 → decode 0x00000001#32 d = .instr (.crc8 d)) ∧
  (∀ (d : List Byte) (s : State),
    exec (.crc8 d) s = .next { s with results := s.results ++ [⟨.ok, crc8 d, []⟩] }) ∧
  crc8 [] = 0x00#8 ∧ crc8 [0x3A#8] = 0xC0#8 ∧ crc8 [0x50#8] = 0xDB#8 ∧
  crc8 [0x34#8, 0x12#8, 0x01#8, 0xDB#8, 0xDC#8, 0x01#8] = 0xD2#8

/-! ## The codec -/

/-- R121: what an escaped sequence is, its length, that it holds no 0xC0, and that every 0xDB in it is followed by
0xDC or 0xDD. -/
def Obligations.EscapedFormShape : Prop :=
  ∀ s : List Byte,
    escSeq s = s.flatMap escByte ∧
    (escSeq s).length = s.length + s.countP (fun b => b == 0xC0#8 || b == 0xDB#8) ∧
    0xC0#8 ∉ escSeq s ∧
    ∀ k, (escSeq s)[k]? = some 0xDB#8 →
      (escSeq s)[k + 1]? = some 0xDC#8 ∨ (escSeq s)[k + 1]? = some 0xDD#8

/-- R122: escaping with a capacity is Ok exactly when the escaped form fits, and then gives it; otherwise the output
is the escaped form of the input before the first byte that does not fit. -/
def Obligations.EscapingStopsBeforeTheByteThatDoesNotFit : Prop :=
  ∀ (s : List Byte) (cap : Nat),
    ((escSeq s).length ≤ cap → escCap s cap = .ok (escSeq s)) ∧
    (cap < (escSeq s).length →
      ∃ (k : Nat) (b : Byte), s[k]? = some b ∧
        escCap s cap = .overflow (escSeq (s.take k)) ∧
        (escSeq (s.take k)).length ≤ cap ∧
        cap < (escSeq (s.take k)).length + (escByte b).length)

/-- R126: the ESCAPE command, in both outcomes; on OVERFLOW the output is the escaped form of the input before the
first byte that does not fit, and it never ends in a lone 0xDB. -/
def Obligations.EscapeCommand : Prop :=
  (∀ (cap : Byte) (d : List Byte), d.length ≤ 255 →
    decode (0#16 ++ cap ++ 0x02#8 : BitVec 32) d = .instr (.escape cap d)) ∧
  (∀ (cap : Byte) (d : List Byte) (s : State), (escSeq d).length ≤ cap.toNat →
    exec (.escape cap d) s = .next { s with
      results := s.results ++ [⟨.ok, BitVec.ofNat 8 (escSeq d).length, escSeq d⟩] }) ∧
  (∀ (cap : Byte) (d : List Byte) (s : State), cap.toNat < (escSeq d).length →
    ∃ (k : Nat) (b : Byte), d[k]? = some b ∧
      (escSeq (d.take k)).length ≤ cap.toNat ∧
      cap.toNat < (escSeq (d.take k)).length + (escByte b).length ∧
      (escSeq (d.take k)).getLast? ≠ some 0xDB#8 ∧
      exec (.escape cap d) s = .next { s with
        results := s.results ++
          [⟨.overflow, BitVec.ofNat 8 (escSeq (d.take k)).length, escSeq (d.take k)⟩] }) ∧
  escSeq [] = [] ∧
  escCap [0xC0#8, 0x01#8] 3 = .ok [0xDB#8, 0xDC#8, 0x01#8] ∧
  escCap [0xC0#8, 0x01#8] 2 = .overflow [0xDB#8, 0xDC#8] ∧
  escCap [0xC0#8, 0x01#8] 1 = .overflow []

/-- R125: for [DB DD DC] the normative order of the passes gives [DB DC], the other order would give [C0], and the
input is the escaped form of [DB DC]. -/
def Obligations.UnescapePassOrder : Prop :=
  unesc [0xDB#8, 0xDD#8, 0xDC#8] = [0xDB#8, 0xDC#8] ∧
  replacePass 0xDB#8 0xDC#8 0xC0#8 (replacePass 0xDB#8 0xDD#8 0xDB#8 [0xDB#8, 0xDD#8, 0xDC#8]) = [0xC0#8] ∧
  escSeq [0xDB#8, 0xDC#8] = [0xDB#8, 0xDD#8, 0xDC#8]

/-- R127: unescape never lengthens. -/
def Obligations.UnescapeNeverLengthens : Prop :=
  ∀ s : List Byte, (unesc s).length ≤ s.length

/-- R128: for every byte sequence p, unesc(esc(p)) = p. -/
def Obligations.UnescapeInvertsEscape : Prop :=
  ∀ p : List Byte, unesc (escSeq p) = p

/-- The two passes agree with the left-to-right decoder of 41_codec.md R129 on EVERY input (the spec checked lengths
0 to 8 only). -/
def Obligations.TwoPassesEqualTheSinglePass : Prop :=
  ∀ s : List Byte, unesc s = singlePass s

/-- A sequence with no escape pair passes through unchanged, malformed escapes and raw 0xC0 included
(41_codec.md R130). -/
def Obligations.UnpairedEscapesPassThrough : Prop :=
  ∀ s : List Byte, NoEscapePair s → unesc s = s

/-- R134: the UNESCAPE command. -/
def Obligations.UnescapeCommand : Prop :=
  (∀ d : List Byte, d.length ≤ 255 → decode 0x00000003#32 d = .instr (.unescape d)) ∧
  (∀ (d : List Byte) (s : State),
    exec (.unescape d) s = .next { s with
      results := s.results ++ [⟨.ok, BitVec.ofNat 8 (unesc d).length, unesc d⟩] }) ∧
  unesc [] = [] ∧ unesc [0xDB#8] = [0xDB#8] ∧ unesc [0xDB#8, 0xDC#8, 0xDD#8] = [0xC0#8, 0xDD#8] ∧
  unesc [0xDB#8, 0xDD#8, 0xDC#8] = [0xDB#8, 0xDC#8] ∧ unesc [0xDB#8, 0xDB#8, 0xDC#8] = [0xDB#8, 0xC0#8] ∧
  unesc [0xC0#8] = [0xC0#8] ∧ unesc [0xDB#8, 0xDC#8, 0x01#8] = [0xC0#8, 0x01#8]

/-! ## QUEUE -/

/-- R152: with a frame pending, QUEUE is BUSY and changes nothing, whatever its operands. -/
def Obligations.QueueWhilePendingIsBusy : Prop :=
  ∀ (ident : Ident) (flags : Byte) (d : List Byte) (s : State), s.pending = true →
    exec (.queue ident flags d) s = .next { s with results := s.results ++ [⟨.busy, 0#8, []⟩] }

/-- R153: with nothing pending and no connection, QUEUE is NOT_CONNECTED and changes nothing. -/
def Obligations.QueueNeedsTheConnection : Prop :=
  ∀ (ident : Ident) (flags : Byte) (d : List Byte) (s : State),
    s.pending = false → s.connected = false →
    exec (.queue ident flags d) s =
      .next { s with results := s.results ++ [⟨.notConnected, 0#8, []⟩] }

/-- R156: when the payload fits, and that a QUEUE whose payload does not fit is OVERFLOW and changes nothing. -/
def Obligations.QueueOverflowChangesNothing : Prop :=
  ∀ (ident : Ident) (flags : Byte) (d : List Byte) (s : State),
    ((∃ e, escCap d (s.config.txCap - 6) = .ok e) ↔ (escSeq d).length ≤ s.config.txCap - 6) ∧
    ((∃ e, escCap d (s.config.txCap - 6) = .ok e) ↔
      (frameOf ident flags (escSeq d)).length ≤ s.config.txCap) ∧
    (s.pending = false → s.connected = true → s.config.txCap - 6 < (escSeq d).length →
      exec (.queue ident flags d) s =
        .next { s with results := s.results ++ [⟨.overflow, 0#8, []⟩] })

/-- R154, R155, R157: a QUEUE that passes its tests writes the frame, with its checksum over the body as it is on the
wire, to TXB from offset 0; bytes at and above its length keep their contents; it sets tx_len, tx_sent and pending
and answers `(OK, len(frame), [])`. -/
def Obligations.QueueWritesTheFrame : Prop :=
  ∀ (ident : Ident) (flags : Byte) (d : List Byte) (s : State) (body frame : List Byte),
    s.pending = false → s.connected = true →
    (escSeq d).length ≤ s.config.txCap - 6 →
    body = [ident.extractLsb' 0 8, ident.extractLsb' 8 8, flags] ++ escSeq d →
    frame = [0xC0#8] ++ body ++ [crc8 body] ++ [0xC0#8] →
    ∃ txb, exec (.queue ident flags d) s = .next { s with
        txb := txb, txLen := BitVec.ofNat 8 frame.length, txSent := 0#8, pending := true,
        results := s.results ++ [⟨.ok, BitVec.ofNat 8 frame.length, []⟩] } ∧
      frame.length = (escSeq d).length + 6 ∧ (BitVec.ofNat 8 frame.length).toNat = frame.length ∧
      (∀ k < frame.length, txb.get? k = frame[k]?) ∧
      ∀ a, frame.length ≤ a → txb.get? a = s.txb.get? a

/-- R73: in a frame built by QUEUE a DELIM at an offset other than 0 and L-1 is the raw identifier, flags or
checksum byte; every ESC inside the escaped payload is followed there by 0xDC or 0xDD; the checksum byte can be
0xC0. -/
def Obligations.DelimitersInsideAQueuedFrame : Prop :=
  (∀ (ident : Ident) (flags : Byte) (d : List Byte) (k : Nat),
    (frameOf ident flags (escSeq d))[k]? = some 0xC0#8 →
      k ∈ [0, 1, 2, 3, (escSeq d).length + 4, (escSeq d).length + 5]) ∧
  (∀ (ident : Ident) (flags : Byte) (d : List Byte) (k : Nat),
    (frameOf ident flags (escSeq d))[k + 4]? = some 0xDB#8 → k < (escSeq d).length →
      k + 1 < (escSeq d).length ∧
      ((frameOf ident flags (escSeq d))[k + 5]? = some 0xDC#8 ∨
        (frameOf ident flags (escSeq d))[k + 5]? = some 0xDD#8)) ∧
  frameOf 0x005C#16 0x00#8 (escSeq []) = [0xC0#8, 0x5C#8, 0x00#8, 0x00#8, 0xC0#8, 0xC0#8]

/-! ## PUMP -/

/-- R161: with nothing pending PUMP is IDLE, changes nothing and draws nothing. -/
def Obligations.PumpWithNothingPending : Prop :=
  ∀ s : State, s.pending = false →
    exec .pump s = .next { s with results := s.results ++ [⟨.idle, 0#8, []⟩] }

/-- With a frame pending PUMP offers `min(tx_len - tx_sent, CHUNK_SIZE)` bytes from tx_sent. ACCEPT emits them and
answers OK, EXHAUST emits nothing and answers SEND_EXHAUSTED; either way tx_sent advances and pending clears at the end
of the frame (42_transmit.md R160, R162 to R165). THE MODEL'S CHOICE (log 2): the answer is the head of `answers`, which
the draw takes off while `draws` counts it; where none is listed it is a free value, so the outcome is one of the two. -/
def Obligations.PumpOffersOneChunk : Prop :=
  ∀ (s : State) (n : Nat) (chunk : List Byte) (accepted exhausted : State),
    s.pending = true →
    s.txSent.toNat < s.txLen.toNat → s.txLen.toNat ≤ s.config.txCap →
    n = min (s.txLen.toNat - s.txSent.toNat) s.config.chunkSize →
    chunk.length = n → s.txb.Holds s.txSent.toNat chunk →
    exhausted = { s with
      txSent := BitVec.ofNat 8 (s.txSent.toNat + n),
      pending := !decide (s.txSent.toNat + n = s.txLen.toNat),
      answers := s.answers.tail, draws := s.draws + 1,
      results := s.results ++ [⟨.sendExhausted, BitVec.ofNat 8 n, []⟩] } →
    accepted = { s with
      txSent := BitVec.ofNat 8 (s.txSent.toNat + n),
      pending := !decide (s.txSent.toNat + n = s.txLen.toNat),
      answers := s.answers.tail, draws := s.draws + 1,
      results := s.results ++ [⟨.ok, BitVec.ofNat 8 n, []⟩],
      trace := s.trace ++ [.txChunk chunk] } →
    (1 ≤ n ∧ n ≤ s.config.chunkSize) ∧
    (s.answers.head? = some .accept → exec .pump s = .next accepted) ∧
    (s.answers.head? = some .exhaust → exec .pump s = .next exhausted) ∧
    (s.answers = [] → exec .pump s = .next accepted ∨ exec .pump s = .next exhausted)

/-- A queued frame is read out by exactly ceil(tx_len / CHUNK_SIZE) PUMPs, whatever the transport answers:
after k of them tx_sent is min(k * CHUNK_SIZE, tx_len), and pending is clear exactly from the last one on
(42_transmit.md R169). -/
def Obligations.PumpsReadTheFrameOut : Prop :=
  ∀ (s : State) (k : Nat), s.Inv → s.pending = true → s.txSent = 0#8 →
    ∃ t, execAll (List.replicate k .pump) s = .next t ∧
      t.txSent.toNat = min (k * s.config.chunkSize) s.txLen.toNat ∧
      (t.pending = true ↔
        k < (s.txLen.toNat + s.config.chunkSize - 1) / s.config.chunkSize)

/-- If the transport accepts every chunk, the chunks emitted, each of 1 to CHUNK_SIZE bytes, put together
are the frame in TXB (42_transmit.md R162, R163, R169). -/
def Obligations.AcceptedChunksSpellTheFrame : Prop :=
  ∀ (s : State) (n : Nat) (frame : List Byte), s.Inv → s.pending = true → s.txSent = 0#8 →
    n = (s.txLen.toNat + s.config.chunkSize - 1) / s.config.chunkSize →
    s.answers.take n = List.replicate n .accept →
    frame.length = s.txLen.toNat → s.txb.Holds 0 frame →
    ∃ (t : State) (chunks : List (List Byte)),
      execAll (List.replicate n .pump) s = .next t ∧
      t.trace = s.trace ++ chunks.map .txChunk ∧ chunks.length = n ∧
      chunks.flatten = frame ∧
      ∀ ch ∈ chunks, 1 ≤ ch.length ∧ ch.length ≤ s.config.chunkSize

/-! ## INGEST -/

/-- R185: a stray fragment is dropped. -/
def Obligations.StrayFragmentIsDiscarded : Prop :=
  ∀ (first : Byte) (rest : List Byte) (s : State), first ≠ 0xC0#8 → s.rxLen = 0#8 →
    exec (.ingest (first :: rest)) s =
      .next { s with results := s.results ++ [⟨.discarded, 0#8, []⟩] }

/-- A leading fragment longer than RX_CAP, and a continuation that would pass RX_CAP, drop the partial frame, write no
byte of RXB and emit nothing (43_receive.md R183, R184, their overflow cases). -/
def Obligations.FragmentThatDoesNotFitIsDropped : Prop :=
  ∀ (first : Byte) (rest : List Byte) (s : State),
    (first = 0xC0#8 ∧ s.config.rxCap < (first :: rest).length) ∨
    (first ≠ 0xC0#8 ∧ 0 < s.rxLen.toNat ∧ s.config.rxCap < s.rxLen.toNat + (first :: rest).length) →
    exec (.ingest (first :: rest)) s =
      .next { s with rxLen := 0#8, results := s.results ++ [⟨.rxOverflow, 0#8, []⟩] }

/-- R186: a stored fragment that does not complete a frame. The fragment's bytes are in RXB and no other byte of RXB
changes. -/
def Obligations.IncompleteFrameWaits : Prop :=
  ∀ (fragment buf : List Byte) (s : State),
    s.Accumulates fragment buf → buf.length ≤ s.config.rxCap →
    (buf.length < 2 ∨ buf.getLast? ≠ some 0xC0#8) →
    ∃ rxb, exec (.ingest fragment) s = .next { s with
        rxb := rxb, rxLen := BitVec.ofNat 8 buf.length,
        results := s.results ++ [⟨.assembling, BitVec.ofNat 8 buf.length, []⟩] } ∧
      ∀ a, rxb.get? a = if a < buf.length then buf[a]? else s.rxb.get? a

/-- R189: a complete frame whose unescaped span is shorter than 4 bytes. -/
def Obligations.RuntFrameIsDropped : Prop :=
  ∀ (fragment span : List Byte) (b0 : Byte) (s : State),
    s.Accumulates fragment ([b0] ++ span ++ [0xC0#8]) → span.length + 2 ≤ s.config.rxCap →
    (unesc span).length < 4 →
    ∃ rxb, exec (.ingest fragment) s = .next { s with
        rxb := rxb, rxLen := 0#8,
        results := s.results ++ [⟨.runt, BitVec.ofNat 8 (unesc span).length, []⟩] } ∧
      ∀ a, rxb.get? a =
        if a < span.length + 2 then ([b0] ++ span ++ [0xC0#8])[a]? else s.rxb.get? a

/-- R190, R194: a complete frame whose last unescaped byte is not the checksum of the unescaped bytes before it. -/
def Obligations.BadChecksumIsRejected : Prop :=
  ∀ (fragment span u : List Byte) (b0 rcv : Byte) (s : State),
    s.Accumulates fragment ([b0] ++ span ++ [0xC0#8]) → span.length + 2 ≤ s.config.rxCap →
    unesc span = u ++ [rcv] → 3 ≤ u.length → crc8 u ≠ rcv →
    ∃ rxb, exec (.ingest fragment) s = .next { s with
        rxb := rxb, rxLen := 0#8,
        results := s.results ++ [⟨.checksumMismatch, 0#8, []⟩],
        trace := s.trace ++ [.rxChecksumFail] } ∧
      ∀ a, rxb.get? a =
        if a < span.length + 2 then ([b0] ++ span ++ [0xC0#8])[a]? else s.rxb.get? a

/-- R191, R192, R193: a complete frame with a matching checksum is dispatched, its identifier read low byte first;
rx_len is cleared exactly when RX_CLEAR_ON_DISPATCH is true. -/
def Obligations.GoodFrameIsDispatched : Prop :=
  ∀ (fragment span payload : List Byte) (b0 lo hi flags : Byte) (s : State),
    s.Accumulates fragment ([b0] ++ span ++ [0xC0#8]) → span.length + 2 ≤ s.config.rxCap →
    unesc span = [lo, hi, flags] ++ payload ++ [crc8 ([lo, hi, flags] ++ payload)] →
    ∃ rxb, exec (.ingest fragment) s = .next { s with
        rxb := rxb,
        rxLen := if s.config.rxClearOnDispatch then 0#8 else BitVec.ofNat 8 (span.length + 2),
        results := s.results ++ [⟨.dispatched, BitVec.ofNat 8 payload.length, []⟩],
        trace := s.trace ++ [.rxPacket (hi ++ lo : BitVec 16) flags payload] } ∧
      (∀ a, rxb.get? a =
        if a < span.length + 2 then ([b0] ++ span ++ [0xC0#8])[a]? else s.rxb.get? a) ∧
      payload.length ≤ s.config.rxCap - 6 ∧ (BitVec.ofNat 8 payload.length).toNat = payload.length

/-- INGEST's frame: whatever the fragment, the link and transmit state, the parameters and the environment's inputs
are unchanged, and so is every byte of RXB but those the fragment is stored to, from offset 0 for a leading
fragment and from rx_len for another; a stray fragment stores nothing (10_state.md R21, 43_receive.md R183 to R185). -/
def Obligations.IngestTouchesOnlyTheReceiver : Prop :=
  ∀ (fragment : List Byte) (s t : State), exec (.ingest fragment) s = .next t →
    t.config = s.config ∧ t.txb = s.txb ∧ t.txLen = s.txLen ∧ t.txSent = s.txSent ∧
    t.pending = s.pending ∧ t.connected = s.connected ∧ t.port = s.port ∧
    t.answers = s.answers ∧ t.draws = s.draws ∧
    (fragment.head? = some 0xC0#8 → ∀ a, fragment.length ≤ a → t.rxb.get? a = s.rxb.get? a) ∧
    (fragment.head? ≠ some 0xC0#8 → ∀ a, a < s.rxLen.toNat ∨ s.rxLen.toNat + fragment.length ≤ a →
      t.rxb.get? a = s.rxb.get? a) ∧
    (fragment.head? ≠ some 0xC0#8 → s.rxLen = 0#8 → t.rxb = s.rxb)

/-- The receiver's transitions, by INGEST's result code and by DISCONNECT (43_receive.md R197). -/
def Obligations.ReceiverTransitions : Prop :=
  (∀ (fragment : List Byte) (s t : State) (r : Result),
    exec (.ingest fragment) s = .next t → t.results = s.results ++ [r] →
    (r.code = .discarded ∧ fragment.head? ≠ some 0xC0#8 ∧ s.rxLen.toNat = 0 ∧ t.rxLen.toNat = 0) ∨
    (r.code = .rxOverflow ∧ t.rxLen.toNat = 0 ∧
      (fragment.head? = some 0xC0#8 ∧ s.config.rxCap < fragment.length ∨
       fragment.head? ≠ some 0xC0#8 ∧ 0 < s.rxLen.toNat ∧
         s.config.rxCap < s.rxLen.toNat + fragment.length)) ∨
    (r.code = .assembling ∧ (fragment.head? = some 0xC0#8 ∨ 0 < s.rxLen.toNat) ∧ 0 < t.rxLen.toNat) ∨
    (r.code = .runt ∧ (fragment.head? = some 0xC0#8 ∨ 0 < s.rxLen.toNat) ∧ t.rxLen.toNat = 0) ∨
    (r.code = .checksumMismatch ∧ (fragment.head? = some 0xC0#8 ∨ 0 < s.rxLen.toNat) ∧ t.rxLen.toNat = 0) ∨
    (r.code = .dispatched ∧ (fragment.head? = some 0xC0#8 ∨ 0 < s.rxLen.toNat) ∧
      (t.rxLen.toNat = 0 ↔ s.config.rxClearOnDispatch = true))) ∧
  (∀ s : State, ∃ t, exec .disconnect s = .next t ∧ t.rxLen.toNat = 0)

/-- R198: nothing but a completing or overflowing fragment or a DISCONNECT ends an Assembling receiver's wait. -/
def Obligations.NothingElseEndsAReassembly : Prop :=
  ∀ (i : Instr) (s t : State) (r : Result), 0 < s.rxLen.toNat →
    exec i s = .next t → t.results = s.results ++ [r] → t.rxLen.toNat = 0 →
    i = .disconnect ∨
    (∃ fragment, i = .ingest fragment) ∧
      r.code ∈ [ResultCode.rxOverflow, .runt, .checksumMismatch, .dispatched]

/-- A frame that one block builds from a payload without reserved bytes, whose wire body holds no escape
pair, is dispatched intact by every block that receives it as one fragment and can hold it
(43_receive.md R199 (a); 20_memory.md R56, R57). -/
def Obligations.QueuedFrameIsDispatchedIntact : Prop :=
  ∀ (ident : Ident) (flags : Byte) (p body : List Byte) (s r : State),
    s.pending = false → s.connected = true →
    p.length + 6 ≤ s.config.txCap → p.length + 6 ≤ r.config.rxCap →
    0xC0#8 ∉ p → 0xDB#8 ∉ p →
    body = [ident.extractLsb' 0 8, ident.extractLsb' 8 8, flags] ++ p →
    NoEscapePair (body ++ [crc8 body]) →
    ∃ (q t : State) (frame : List Byte),
      exec (.queue ident flags p) s = .next q ∧ q.pending = true ∧
      frame.length = q.txLen.toNat ∧ q.txb.Holds 0 frame ∧
      exec (.ingest frame) r = .next t ∧
      t.trace = r.trace ++ [.rxPacket ident flags p] ∧
      t.results = r.results ++ [⟨.dispatched, BitVec.ofNat 8 p.length, []⟩]

/-- A sequence that begins with DELIM, split so that no later fragment begins with 0xC0 and no earlier
fragment ends with 0xC0, has the outcome of the whole in one fragment: the same event, the same last result, the
same rx_len and the same bytes in RXB; every fragment before the last is ASSEMBLING (43_receive.md R199 (b)). -/
def Obligations.CleanSplitsKeepTheOutcome : Prop :=
  ∀ (frags : List (List Byte)) (s : State),
    (∀ f ∈ frags, f ≠ []) → frags.flatten.head? = some 0xC0#8 →
    (∀ f ∈ frags.tail, f.head? ≠ some 0xC0#8) →
    (∀ f ∈ frags.dropLast, f.getLast? ≠ some 0xC0#8) →
    frags.flatten.length ≤ s.config.rxCap →
    ∃ (t u : State) (before : List Result) (r : Result),
      execAll (frags.map .ingest) s = .next t ∧
      exec (.ingest frags.flatten) s = .next u ∧
      t.trace = u.trace ∧ t.rxLen = u.rxLen ∧ (∀ a, t.rxb.get? a = u.rxb.get? a) ∧
      u.results = s.results ++ [r] ∧ t.results = s.results ++ before ++ [r] ∧
      before.length + 1 = frags.length ∧ ∀ x ∈ before, x.code = .assembling

/-! ## CONNECT, DISCONNECT, READ_STATUS -/

/-- R210: CONNECT. -/
def Obligations.ConnectSetsTheFlag : Prop :=
  decode 0x00000007#32 [] = .instr .connect ∧
  (∀ s : State, exec .connect s =
    .next { s with connected := true, results := s.results ++ [⟨.ok, 0#8, []⟩] }) ∧
  ∃ t, exec .connect State.reset = .next t ∧ t.status = 0x02#8

/-- R211: DISCONNECT aborts the send and the reassembly; tx_len, tx_sent, TXB and RXB keep their values. -/
def Obligations.DisconnectAbortsSendAndReassembly : Prop :=
  decode 0x00000008#32 [] = .instr .disconnect ∧
  (∀ s : State, exec .disconnect s =
    .next { s with
      connected := false, pending := false, rxLen := 0#8,
      results := s.results ++ [⟨.ok, 0#8, []⟩] }) ∧
  (∀ s : State, s.status = 0x03#8 → ∃ t, exec .disconnect s = .next t ∧ t.status = 0x00#8) ∧
  ∀ (s : State) (ident : Ident) (flags : Byte) (d : List Byte),
    (escSeq d).length ≤ s.config.txCap - 6 →
    ∃ (t : State) (r : Result), execAll [.disconnect, .connect, .queue ident flags d] s = .next t ∧
      t.results.getLast? = some r ∧ r.code = .ok

/-- R214: READ_STATUS. -/
def Obligations.ReadStatusReportsTheState : Prop :=
  decode 0x00000009#32 [] = .instr .readStatus ∧
  (∀ s : State, exec .readStatus s =
    .next { s with results := s.results ++ [⟨.ok, s.status, [s.txLen, s.txSent, s.rxLen]⟩] }) ∧
  (∀ s : State, s.status =
    (if s.pending then 1#8 else 0#8) ||| ((if s.connected then 1#8 else 0#8) <<< 1) |||
      ((if s.rxLen ≠ 0#8 then 1#8 else 0#8) <<< 2)) ∧
  ∀ s : State, (⟨.ok, s.status, [s.txLen, s.txSent, s.rxLen]⟩ : Result).isBusy = s.pending

/-- R25: the fields of STATUS, bit by bit, and its reset value. -/
def Obligations.StatusFields : Prop :=
  (∀ c : Config, (State.resetWith c).status = 0x00#8) ∧
  ∀ s : State,
    s.status.getLsbD 0 = s.pending ∧
    s.status.getLsbD 1 = s.connected ∧
    s.status.getLsbD 2 = decide (s.rxLen ≠ 0#8) ∧
    ∀ k, 3 ≤ k → s.status.getLsbD k = false

/-- R213: CONNECT and DISCONNECT take effect at their place in the order: after a DISCONNECT a QUEUE sees no
connection, a PUMP sees nothing pending, and an INGEST starts from Empty. -/
def Obligations.CommandsAfterADisconnect : Prop :=
  ∀ (s down : State),
    down = { s with
      connected := false, pending := false, rxLen := 0#8,
      results := s.results ++ [⟨.ok, 0#8, []⟩] } →
    (∀ (ident : Ident) (flags : Byte) (d : List Byte),
      execAll [.disconnect, .queue ident flags d] s =
        .next { down with results := down.results ++ [⟨.notConnected, 0#8, []⟩] }) ∧
    execAll [.disconnect, .pump] s =
      .next { down with results := down.results ++ [⟨.idle, 0#8, []⟩] } ∧
    ∀ (first : Byte) (rest : List Byte), first ≠ 0xC0#8 →
      execAll [.disconnect, .ingest (first :: rest)] s =
        .next { down with results := down.results ++ [⟨.discarded, 0#8, []⟩] }

/-! ## Whole-machine rules -/

/-- R21: which commands write which fields. -/
def Obligations.OwnershipOfTheState : Prop :=
  ∀ (i : Instr) (s t : State), exec i s = .next t →
    t.config = s.config ∧ t.port = s.port ∧
    ((∀ ident flags d, i ≠ .queue ident flags d) → i ≠ .pump → i ≠ .disconnect →
      t.txb = s.txb ∧ t.txLen = s.txLen ∧ t.txSent = s.txSent ∧ t.pending = s.pending) ∧
    ((∀ fragment, i ≠ .ingest fragment) → i ≠ .disconnect → t.rxb = s.rxb ∧ t.rxLen = s.rxLen) ∧
    (i ≠ .connect → i ≠ .disconnect → t.connected = s.connected) ∧
    ((∃ d, i = .crc8 d) ∨ (∃ cap d, i = .escape cap d) ∨ (∃ d, i = .unescape d) ∨ i = .readStatus →
      t = { s with results := t.results })

/-- R92: every command produces one result and at most one event; which event, and exactly when. -/
def Obligations.EventsOfACommand : Prop :=
  ∀ (i : Instr) (s t : State), exec i s = .next t →
    ∃ (r : Result) (evs : List Event),
      t.results = s.results ++ [r] ∧ t.trace = s.trace ++ evs ∧ evs.length ≤ 1 ∧
      ((∃ bytes, evs = [.txChunk bytes]) ↔ i = .pump ∧ r.code = .ok) ∧
      ((∃ ident flags payload, evs = [.rxPacket ident flags payload]) ↔ r.code = .dispatched) ∧
      (evs = [.rxChecksumFail] ↔ r.code = .checksumMismatch) ∧
      (s.Inv → ∀ bytes, evs = [.txChunk bytes] →
        1 ≤ bytes.length ∧ bytes.length ≤ s.config.chunkSize) ∧
      (s.Inv → ∀ ident flags payload, evs = [.rxPacket ident flags payload] →
        payload.length ≤ s.config.rxCap - 6)

/-- The numbers of the result codes (30_encoding.md R91), that they are distinct and none is reserved, and which
command produces which code. -/
def Obligations.ResultCodesByCommand : Prop :=
  ([ResultCode.ok, .busy, .notConnected, .overflow, .idle, .sendExhausted, .discarded, .assembling,
      .dispatched, .checksumMismatch, .runt, .rxOverflow, .illegal].map ResultCode.bits) =
    [0x0#4, 0x1#4, 0x2#4, 0x3#4, 0x4#4, 0x5#4, 0x6#4, 0x7#4, 0x8#4, 0x9#4, 0xA#4, 0xB#4, 0xF#4] ∧
  (∀ c d : ResultCode, c.bits = d.bits → c = d) ∧
  (∀ c : ResultCode, c.bits ∉ [0xC#4, 0xD#4, 0xE#4]) ∧
  (∀ s : State, execIllegal s = .next { s with results := s.results ++ [⟨.illegal, 0#8, []⟩] }) ∧
  ∀ (i : Instr) (s t : State) (r : Result),
    exec i s = .next t → t.results = s.results ++ [r] →
    r.code ∈ (match i with
      | .crc8 _ => [ResultCode.ok]
      | .escape _ _ => [.ok, .overflow]
      | .unescape _ => [.ok]
      | .queue _ _ _ => [.ok, .busy, .notConnected, .overflow]
      | .pump => [.ok, .idle, .sendExhausted]
      | .ingest _ => [.discarded, .assembling, .dispatched, .checksumMismatch, .runt, .rxOverflow]
      | .connect => [.ok]
      | .disconnect => [.ok]
      | .readStatus => [.ok])

/-- R215: once nothing is pending, that stays true until a QUEUE, and the next QUEUE is not BUSY. -/
def Obligations.ReadIdleStaysTrueUntilAQueue : Prop :=
  ∀ (is : List Instr) (s t : State), s.pending = false →
    (∀ i ∈ is, ∀ ident flags d, i ≠ .queue ident flags d) →
    execAll is s = .next t →
    t.pending = false ∧
    ∀ (ident : Ident) (flags : Byte) (d : List Byte) (u : State) (r : Result),
      exec (.queue ident flags d) t = .next u → u.results = t.results ++ [r] → r.code ≠ .busy

/-- R265: while a host issues neither PUMP nor DISCONNECT a pending frame stays pending, its bytes and counters
untouched, and every QUEUE answers BUSY. -/
def Obligations.UnpumpedFrameStaysPending : Prop :=
  ∀ (is : List Instr) (s t : State), s.pending = true →
    (∀ i ∈ is, i ≠ .pump ∧ i ≠ .disconnect) → execAll is s = .next t →
    t.pending = true ∧ t.txb = s.txb ∧ t.txLen = s.txLen ∧ t.txSent = s.txSent ∧
    ∀ (ident : Ident) (flags : Byte) (d : List Byte),
      exec (.queue ident flags d) t = .next { t with results := t.results ++ [⟨.busy, 0#8, []⟩] }

/-- HEADLINE. What no command but READ_STATUS may read has no effect: two states that agree elsewhere give the same
result and the same events, and agree again. So stale or unspecified buffer bytes are unobservable (10_state.md R28,
D38), and so are tx_len and tx_sent while nothing is pending (70_reset_and_hazards.md R261). -/
def Obligations.UnreadStateIsUnobservable : Prop :=
  ∀ (i : Instr) (s s' : State), i.wf = true → i ≠ .readStatus → s.Inv → s'.Inv → s.Agrees s' →
    ∃ t t', exec i s = .next t ∧ exec i s' = .next t' ∧ t.Agrees t'

/-- A DISCONNECT leaves a state that agrees with reset, in the same configuration, in everything a command other than
READ_STATUS may read (70_reset_and_hazards.md R261). -/
def Obligations.DisconnectIsResetButForTheCounters : Prop :=
  ∀ s : State, ∃ t, exec .disconnect s = .next t ∧ t.txLen = s.txLen ∧ t.txSent = s.txSent ∧
    t.Agrees { State.resetWith s.config with
      port := s.port, answers := s.answers, draws := s.draws, results := t.results, trace := s.trace }

/-- Every configuration is in the ranges of 00_scope.md R7, its RequiresACK mask one bit of 8 other than 0x01
(92_eei_decisions.md D25); the reference configuration has R7's reference values, with its mask open; and no command reads
RETRY_MAX or REQUIRES_ACK_MASK: a configuration that differs in those alone gives the same next state. -/
def Obligations.ParametersAreInRangeAndTwoAreUnread : Prop :=
  (∀ c : Config,
    6 ≤ c.txCap ∧ c.txCap ≤ 255 ∧ 2 ≤ c.rxCap ∧ c.rxCap ≤ 255 ∧
    1 ≤ c.chunkSize ∧ c.chunkSize ≤ 255 ∧ 1 ≤ c.retryMax ∧
    ∃ k, 1 ≤ k ∧ k < 8 ∧ c.requiresAckMask = 1#8 <<< k) ∧
  (Config.reference.txCap = 64 ∧ Config.reference.rxCap = 64 ∧ Config.reference.chunkSize = 20 ∧
    Config.reference.retryMax = 1000 ∧ Config.reference.rxClearOnDispatch = true ∧ dataMax = 255) ∧
  ∀ (i : Instr) (s t : State) (c : Config),
    c.txCap = s.config.txCap → c.rxCap = s.config.rxCap → c.chunkSize = s.config.chunkSize →
    c.rxClearOnDispatch = s.config.rxClearOnDispatch →
    exec i s = .next t → exec i { s with config := c } = .next { t with config := c }
end

