-- ==== Sys2Proof/Laws/State.lean ====
section
/-! SUPPORT. What each named update of State does to each field: one lemma per field per update, so that no proof
unfolds a record update. -/

namespace Sys2Proof.Machine

variable (s : State)

/-! ### State.complete -/

@[simp] theorem State.complete_config (code : ResultCode) (value : Byte) (data : List Byte) : (s.complete code value data).config = s.config := rfl
@[simp] theorem State.complete_txb (code : ResultCode) (value : Byte) (data : List Byte) : (s.complete code value data).txb = s.txb := rfl
@[simp] theorem State.complete_txLen (code : ResultCode) (value : Byte) (data : List Byte) : (s.complete code value data).txLen = s.txLen := rfl
@[simp] theorem State.complete_txSent (code : ResultCode) (value : Byte) (data : List Byte) : (s.complete code value data).txSent = s.txSent := rfl
@[simp] theorem State.complete_pending (code : ResultCode) (value : Byte) (data : List Byte) : (s.complete code value data).pending = s.pending := rfl
@[simp] theorem State.complete_rxb (code : ResultCode) (value : Byte) (data : List Byte) : (s.complete code value data).rxb = s.rxb := rfl
@[simp] theorem State.complete_rxLen (code : ResultCode) (value : Byte) (data : List Byte) : (s.complete code value data).rxLen = s.rxLen := rfl
@[simp] theorem State.complete_connected (code : ResultCode) (value : Byte) (data : List Byte) : (s.complete code value data).connected = s.connected := rfl
@[simp] theorem State.complete_port (code : ResultCode) (value : Byte) (data : List Byte) : (s.complete code value data).port = s.port := rfl
@[simp] theorem State.complete_answers (code : ResultCode) (value : Byte) (data : List Byte) : (s.complete code value data).answers = s.answers := rfl
@[simp] theorem State.complete_draws (code : ResultCode) (value : Byte) (data : List Byte) : (s.complete code value data).draws = s.draws := rfl
@[simp] theorem State.complete_results (code : ResultCode) (value : Byte) (data : List Byte) : (s.complete code value data).results = s.results ++ [⟨code, value, data⟩] := rfl
@[simp] theorem State.complete_trace (code : ResultCode) (value : Byte) (data : List Byte) : (s.complete code value data).trace = s.trace := rfl

/-! ### State.emit -/

@[simp] theorem State.emit_config (e : Event) : (s.emit e).config = s.config := rfl
@[simp] theorem State.emit_txb (e : Event) : (s.emit e).txb = s.txb := rfl
@[simp] theorem State.emit_txLen (e : Event) : (s.emit e).txLen = s.txLen := rfl
@[simp] theorem State.emit_txSent (e : Event) : (s.emit e).txSent = s.txSent := rfl
@[simp] theorem State.emit_pending (e : Event) : (s.emit e).pending = s.pending := rfl
@[simp] theorem State.emit_rxb (e : Event) : (s.emit e).rxb = s.rxb := rfl
@[simp] theorem State.emit_rxLen (e : Event) : (s.emit e).rxLen = s.rxLen := rfl
@[simp] theorem State.emit_connected (e : Event) : (s.emit e).connected = s.connected := rfl
@[simp] theorem State.emit_port (e : Event) : (s.emit e).port = s.port := rfl
@[simp] theorem State.emit_answers (e : Event) : (s.emit e).answers = s.answers := rfl
@[simp] theorem State.emit_draws (e : Event) : (s.emit e).draws = s.draws := rfl
@[simp] theorem State.emit_results (e : Event) : (s.emit e).results = s.results := rfl
@[simp] theorem State.emit_trace (e : Event) : (s.emit e).trace = s.trace ++ [e] := rfl

/-! ### State.withPort -/

@[simp] theorem State.withPort_config (rest : List Cmd) : (s.withPort rest).config = s.config := rfl
@[simp] theorem State.withPort_txb (rest : List Cmd) : (s.withPort rest).txb = s.txb := rfl
@[simp] theorem State.withPort_txLen (rest : List Cmd) : (s.withPort rest).txLen = s.txLen := rfl
@[simp] theorem State.withPort_txSent (rest : List Cmd) : (s.withPort rest).txSent = s.txSent := rfl
@[simp] theorem State.withPort_pending (rest : List Cmd) : (s.withPort rest).pending = s.pending := rfl
@[simp] theorem State.withPort_rxb (rest : List Cmd) : (s.withPort rest).rxb = s.rxb := rfl
@[simp] theorem State.withPort_rxLen (rest : List Cmd) : (s.withPort rest).rxLen = s.rxLen := rfl
@[simp] theorem State.withPort_connected (rest : List Cmd) : (s.withPort rest).connected = s.connected := rfl
@[simp] theorem State.withPort_port (rest : List Cmd) : (s.withPort rest).port = rest := rfl
@[simp] theorem State.withPort_answers (rest : List Cmd) : (s.withPort rest).answers = s.answers := rfl
@[simp] theorem State.withPort_draws (rest : List Cmd) : (s.withPort rest).draws = s.draws := rfl
@[simp] theorem State.withPort_results (rest : List Cmd) : (s.withPort rest).results = s.results := rfl
@[simp] theorem State.withPort_trace (rest : List Cmd) : (s.withPort rest).trace = s.trace := rfl

/-! ### State.drawn -/

@[simp] theorem State.drawn_config : s.drawn.config = s.config := rfl
@[simp] theorem State.drawn_txb : s.drawn.txb = s.txb := rfl
@[simp] theorem State.drawn_txLen : s.drawn.txLen = s.txLen := rfl
@[simp] theorem State.drawn_txSent : s.drawn.txSent = s.txSent := rfl
@[simp] theorem State.drawn_pending : s.drawn.pending = s.pending := rfl
@[simp] theorem State.drawn_rxb : s.drawn.rxb = s.rxb := rfl
@[simp] theorem State.drawn_rxLen : s.drawn.rxLen = s.rxLen := rfl
@[simp] theorem State.drawn_connected : s.drawn.connected = s.connected := rfl
@[simp] theorem State.drawn_port : s.drawn.port = s.port := rfl
@[simp] theorem State.drawn_answers : s.drawn.answers = s.answers.tail := rfl
@[simp] theorem State.drawn_draws : s.drawn.draws = s.draws + 1 := rfl
@[simp] theorem State.drawn_results : s.drawn.results = s.results := rfl
@[simp] theorem State.drawn_trace : s.drawn.trace = s.trace := rfl

/-! ### State.commitFrame -/

@[simp] theorem State.commitFrame_config (m : Memory) (n : Nat) : (s.commitFrame m n).config = s.config := rfl
@[simp] theorem State.commitFrame_txb (m : Memory) (n : Nat) : (s.commitFrame m n).txb = m := rfl
@[simp] theorem State.commitFrame_txLen (m : Memory) (n : Nat) : (s.commitFrame m n).txLen = len8 n := rfl
@[simp] theorem State.commitFrame_txSent (m : Memory) (n : Nat) : (s.commitFrame m n).txSent = 0#8 := rfl
@[simp] theorem State.commitFrame_pending (m : Memory) (n : Nat) : (s.commitFrame m n).pending = true := rfl
@[simp] theorem State.commitFrame_rxb (m : Memory) (n : Nat) : (s.commitFrame m n).rxb = s.rxb := rfl
@[simp] theorem State.commitFrame_rxLen (m : Memory) (n : Nat) : (s.commitFrame m n).rxLen = s.rxLen := rfl
@[simp] theorem State.commitFrame_connected (m : Memory) (n : Nat) : (s.commitFrame m n).connected = s.connected := rfl
@[simp] theorem State.commitFrame_port (m : Memory) (n : Nat) : (s.commitFrame m n).port = s.port := rfl
@[simp] theorem State.commitFrame_answers (m : Memory) (n : Nat) : (s.commitFrame m n).answers = s.answers := rfl
@[simp] theorem State.commitFrame_draws (m : Memory) (n : Nat) : (s.commitFrame m n).draws = s.draws := rfl
@[simp] theorem State.commitFrame_results (m : Memory) (n : Nat) : (s.commitFrame m n).results = s.results := rfl
@[simp] theorem State.commitFrame_trace (m : Memory) (n : Nat) : (s.commitFrame m n).trace = s.trace := rfl

/-! ### State.advance -/

@[simp] theorem State.advance_config (n : Nat) : (s.advance n).config = s.config := rfl
@[simp] theorem State.advance_txb (n : Nat) : (s.advance n).txb = s.txb := rfl
@[simp] theorem State.advance_txLen (n : Nat) : (s.advance n).txLen = s.txLen := rfl
@[simp] theorem State.advance_txSent (n : Nat) : (s.advance n).txSent = len8 n := rfl
@[simp] theorem State.advance_pending (n : Nat) : (s.advance n).pending = if n = s.txLen.toNat then false else s.pending := rfl
@[simp] theorem State.advance_rxb (n : Nat) : (s.advance n).rxb = s.rxb := rfl
@[simp] theorem State.advance_rxLen (n : Nat) : (s.advance n).rxLen = s.rxLen := rfl
@[simp] theorem State.advance_connected (n : Nat) : (s.advance n).connected = s.connected := rfl
@[simp] theorem State.advance_port (n : Nat) : (s.advance n).port = s.port := rfl
@[simp] theorem State.advance_answers (n : Nat) : (s.advance n).answers = s.answers := rfl
@[simp] theorem State.advance_draws (n : Nat) : (s.advance n).draws = s.draws := rfl
@[simp] theorem State.advance_results (n : Nat) : (s.advance n).results = s.results := rfl
@[simp] theorem State.advance_trace (n : Nat) : (s.advance n).trace = s.trace := rfl

/-! ### State.withRxb -/

@[simp] theorem State.withRxb_config (m : Memory) : (s.withRxb m).config = s.config := rfl
@[simp] theorem State.withRxb_txb (m : Memory) : (s.withRxb m).txb = s.txb := rfl
@[simp] theorem State.withRxb_txLen (m : Memory) : (s.withRxb m).txLen = s.txLen := rfl
@[simp] theorem State.withRxb_txSent (m : Memory) : (s.withRxb m).txSent = s.txSent := rfl
@[simp] theorem State.withRxb_pending (m : Memory) : (s.withRxb m).pending = s.pending := rfl
@[simp] theorem State.withRxb_rxb (m : Memory) : (s.withRxb m).rxb = m := rfl
@[simp] theorem State.withRxb_rxLen (m : Memory) : (s.withRxb m).rxLen = s.rxLen := rfl
@[simp] theorem State.withRxb_connected (m : Memory) : (s.withRxb m).connected = s.connected := rfl
@[simp] theorem State.withRxb_port (m : Memory) : (s.withRxb m).port = s.port := rfl
@[simp] theorem State.withRxb_answers (m : Memory) : (s.withRxb m).answers = s.answers := rfl
@[simp] theorem State.withRxb_draws (m : Memory) : (s.withRxb m).draws = s.draws := rfl
@[simp] theorem State.withRxb_results (m : Memory) : (s.withRxb m).results = s.results := rfl
@[simp] theorem State.withRxb_trace (m : Memory) : (s.withRxb m).trace = s.trace := rfl

/-! ### State.withRxLen -/

@[simp] theorem State.withRxLen_config (n : Nat) : (s.withRxLen n).config = s.config := rfl
@[simp] theorem State.withRxLen_txb (n : Nat) : (s.withRxLen n).txb = s.txb := rfl
@[simp] theorem State.withRxLen_txLen (n : Nat) : (s.withRxLen n).txLen = s.txLen := rfl
@[simp] theorem State.withRxLen_txSent (n : Nat) : (s.withRxLen n).txSent = s.txSent := rfl
@[simp] theorem State.withRxLen_pending (n : Nat) : (s.withRxLen n).pending = s.pending := rfl
@[simp] theorem State.withRxLen_rxb (n : Nat) : (s.withRxLen n).rxb = s.rxb := rfl
@[simp] theorem State.withRxLen_rxLen (n : Nat) : (s.withRxLen n).rxLen = len8 n := rfl
@[simp] theorem State.withRxLen_connected (n : Nat) : (s.withRxLen n).connected = s.connected := rfl
@[simp] theorem State.withRxLen_port (n : Nat) : (s.withRxLen n).port = s.port := rfl
@[simp] theorem State.withRxLen_answers (n : Nat) : (s.withRxLen n).answers = s.answers := rfl
@[simp] theorem State.withRxLen_draws (n : Nat) : (s.withRxLen n).draws = s.draws := rfl
@[simp] theorem State.withRxLen_results (n : Nat) : (s.withRxLen n).results = s.results := rfl
@[simp] theorem State.withRxLen_trace (n : Nat) : (s.withRxLen n).trace = s.trace := rfl

/-! ### State.linkUp -/

@[simp] theorem State.linkUp_config : s.linkUp.config = s.config := rfl
@[simp] theorem State.linkUp_txb : s.linkUp.txb = s.txb := rfl
@[simp] theorem State.linkUp_txLen : s.linkUp.txLen = s.txLen := rfl
@[simp] theorem State.linkUp_txSent : s.linkUp.txSent = s.txSent := rfl
@[simp] theorem State.linkUp_pending : s.linkUp.pending = s.pending := rfl
@[simp] theorem State.linkUp_rxb : s.linkUp.rxb = s.rxb := rfl
@[simp] theorem State.linkUp_rxLen : s.linkUp.rxLen = s.rxLen := rfl
@[simp] theorem State.linkUp_connected : s.linkUp.connected = true := rfl
@[simp] theorem State.linkUp_port : s.linkUp.port = s.port := rfl
@[simp] theorem State.linkUp_answers : s.linkUp.answers = s.answers := rfl
@[simp] theorem State.linkUp_draws : s.linkUp.draws = s.draws := rfl
@[simp] theorem State.linkUp_results : s.linkUp.results = s.results := rfl
@[simp] theorem State.linkUp_trace : s.linkUp.trace = s.trace := rfl

/-! ### State.linkDown -/

@[simp] theorem State.linkDown_config : s.linkDown.config = s.config := rfl
@[simp] theorem State.linkDown_txb : s.linkDown.txb = s.txb := rfl
@[simp] theorem State.linkDown_txLen : s.linkDown.txLen = s.txLen := rfl
@[simp] theorem State.linkDown_txSent : s.linkDown.txSent = s.txSent := rfl
@[simp] theorem State.linkDown_pending : s.linkDown.pending = false := rfl
@[simp] theorem State.linkDown_rxb : s.linkDown.rxb = s.rxb := rfl
@[simp] theorem State.linkDown_rxLen : s.linkDown.rxLen = 0#8 := rfl
@[simp] theorem State.linkDown_connected : s.linkDown.connected = false := rfl
@[simp] theorem State.linkDown_port : s.linkDown.port = s.port := rfl
@[simp] theorem State.linkDown_answers : s.linkDown.answers = s.answers := rfl
@[simp] theorem State.linkDown_draws : s.linkDown.draws = s.draws := rfl
@[simp] theorem State.linkDown_results : s.linkDown.results = s.results := rfl
@[simp] theorem State.linkDown_trace : s.linkDown.trace = s.trace := rfl

/-! ### State.resetWith -/

@[simp] theorem State.resetWith_config (c : Config) : (State.resetWith c).config = c := rfl
@[simp] theorem State.resetWith_txb (c : Config) : (State.resetWith c).txb = [] := rfl
@[simp] theorem State.resetWith_txLen (c : Config) : (State.resetWith c).txLen = 0#8 := rfl
@[simp] theorem State.resetWith_txSent (c : Config) : (State.resetWith c).txSent = 0#8 := rfl
@[simp] theorem State.resetWith_pending (c : Config) : (State.resetWith c).pending = false := rfl
@[simp] theorem State.resetWith_rxb (c : Config) : (State.resetWith c).rxb = [] := rfl
@[simp] theorem State.resetWith_rxLen (c : Config) : (State.resetWith c).rxLen = 0#8 := rfl
@[simp] theorem State.resetWith_connected (c : Config) : (State.resetWith c).connected = false := rfl
@[simp] theorem State.resetWith_port (c : Config) : (State.resetWith c).port = [] := rfl
@[simp] theorem State.resetWith_answers (c : Config) : (State.resetWith c).answers = [] := rfl
@[simp] theorem State.resetWith_draws (c : Config) : (State.resetWith c).draws = 0 := rfl
@[simp] theorem State.resetWith_results (c : Config) : (State.resetWith c).results = [] := rfl
@[simp] theorem State.resetWith_trace (c : Config) : (State.resetWith c).trace = [] := rfl

/-! ### State.start -/

@[simp] theorem State.start_config (c : Config) (cmds : List Cmd) (as : List Resp) : (State.start c cmds as).config = c := rfl
@[simp] theorem State.start_txb (c : Config) (cmds : List Cmd) (as : List Resp) : (State.start c cmds as).txb = [] := rfl
@[simp] theorem State.start_txLen (c : Config) (cmds : List Cmd) (as : List Resp) : (State.start c cmds as).txLen = 0#8 := rfl
@[simp] theorem State.start_txSent (c : Config) (cmds : List Cmd) (as : List Resp) : (State.start c cmds as).txSent = 0#8 := rfl
@[simp] theorem State.start_pending (c : Config) (cmds : List Cmd) (as : List Resp) : (State.start c cmds as).pending = false := rfl
@[simp] theorem State.start_rxb (c : Config) (cmds : List Cmd) (as : List Resp) : (State.start c cmds as).rxb = [] := rfl
@[simp] theorem State.start_rxLen (c : Config) (cmds : List Cmd) (as : List Resp) : (State.start c cmds as).rxLen = 0#8 := rfl
@[simp] theorem State.start_connected (c : Config) (cmds : List Cmd) (as : List Resp) : (State.start c cmds as).connected = false := rfl
@[simp] theorem State.start_port (c : Config) (cmds : List Cmd) (as : List Resp) : (State.start c cmds as).port = cmds := rfl
@[simp] theorem State.start_answers (c : Config) (cmds : List Cmd) (as : List Resp) : (State.start c cmds as).answers = as := rfl
@[simp] theorem State.start_draws (c : Config) (cmds : List Cmd) (as : List Resp) : (State.start c cmds as).draws = 0 := rfl
@[simp] theorem State.start_results (c : Config) (cmds : List Cmd) (as : List Resp) : (State.start c cmds as).results = [] := rfl
@[simp] theorem State.start_trace (c : Config) (cmds : List Cmd) (as : List Resp) : (State.start c cmds as).trace = [] := rfl

/-- A command's result and the port are the only things an illegal command touches. -/
theorem execIllegal_eq : execIllegal s = .next (s.complete .illegal 0#8 []) := rfl

end Sys2Proof.Machine
end

