-- ==== Sys2Proof/Laws/Memory.lean ====
section
/-! SUPPORT. The byte memories: what a read after a write gives, that every operation keeps the canonical form and
the size, and when MemRead and MemWrite succeed. -/

namespace Sys2Proof.Machine

namespace Memory

@[simp] theorem get?_nil (a : Nat) : get? [] a = none := rfl

theorem get?_cons (k : Nat) (v : Byte) (m : Memory) (a : Nat) :
    get? ((k, v) :: m) a = if k = a then some v else get? m a := rfl

theorem wf_tail {c : Host.Cell} {m : Memory} (h : wf (c :: m) = true) : wf m = true := by
  cases m with
  | nil => rfl
  | cons d m => simp [wf] at h; exact h.2

/-- In canonical form every later offset is larger. -/
theorem wf_lt {k : Nat} {v : Byte} {m : Memory} (h : wf ((k, v) :: m) = true) :
    ∀ c ∈ m, k < c.1 := by
  induction m generalizing k v with
  | nil => simp
  | cons d m ih =>
    obtain ⟨j, w⟩ := d
    simp only [wf, Bool.and_eq_true, decide_eq_true_eq] at h
    intro c hc
    rcases List.mem_cons.mp hc with rfl | hc
    · exact h.1
    · exact lt_trans h.1 (ih h.2 c hc)

theorem get?_eq_none_of_lt {m : Memory} {a : Nat} (h : ∀ c ∈ m, a < c.1) : get? m a = none := by
  induction m with
  | nil => rfl
  | cons d m ih =>
    obtain ⟨j, w⟩ := d
    have hj : a < j := h (j, w) (by simp)
    rw [get?_cons, if_neg (by omega)]
    exact ih fun c hc => h c (by simp [hc])

/-- A read after a write of one byte. -/
theorem get?_set (m : Memory) (a : Nat) (b : Byte) (k : Nat) :
    (set m a b).get? k = if k = a then some b else m.get? k := by
  induction m with
  | nil => simp only [set, get?_cons, get?_nil, eq_comm]
  | cons c m ih =>
    obtain ⟨j, v⟩ := c
    simp only [set]
    split
    · simp only [get?_cons]; grind
    · split
      · simp only [get?_cons]; grind
      · simp only [get?_cons, ih]; grind

/-- A read after a write of a sequence: the sequence inside, the old byte outside. -/
theorem get?_write (m : Memory) (a : Nat) (s : List Byte) (k : Nat) :
    (write m a s).get? k = if a ≤ k ∧ k < a + s.length then s[k - a]? else m.get? k := by
  induction s generalizing m a with
  | nil => simp [write]
  | cons b s ih =>
    rw [write, ih, get?_set]
    simp only [List.length_cons]
    by_cases hk : k = a
    · subst hk; rw [if_neg (by omega), if_pos rfl, if_pos (by omega)]; simp
    · rw [if_neg hk]
      by_cases h1 : a + 1 ≤ k ∧ k < a + 1 + s.length
      · rw [if_pos h1, if_pos (by omega)]
        obtain ⟨d, rfl⟩ : ∃ d, k = a + 1 + d := ⟨k - (a + 1), by omega⟩
        rw [show a + 1 + d - (a + 1) = d by omega, show a + 1 + d - a = d + 1 by omega]
        simp
      · rw [if_neg h1, if_neg (by omega)]

theorem mem_set {m : Memory} {a : Nat} {b : Byte} {c : Host.Cell} (h : c ∈ set m a b) :
    c = (a, b) ∨ c ∈ m := by
  induction m with
  | nil => simp [set] at h; exact .inl h
  | cons d m ih =>
    obtain ⟨j, v⟩ := d
    simp only [set] at h
    split at h
    · simpa using h
    · split at h
      · rcases List.mem_cons.mp h with h | h
        · exact .inl h
        · exact .inr (by simp [h])
      · rcases List.mem_cons.mp h with h | h
        · exact .inr (by simp [h])
        · rcases ih h with h | h
          · exact .inl h
          · exact .inr (by simp [h])

theorem wf_cons {k : Nat} {v : Byte} {m : Memory} (h : ∀ c ∈ m, k < c.1) (hm : wf m = true) :
    wf ((k, v) :: m) = true := by
  cases m with
  | nil => rfl
  | cons d m => simp only [wf, Bool.and_eq_true, decide_eq_true_eq]; exact ⟨h d (by simp), hm⟩

/-- Writing one byte keeps the canonical form. -/
theorem wf_set {m : Memory} (h : wf m = true) (a : Nat) (b : Byte) : wf (set m a b) = true := by
  induction m with
  | nil => rfl
  | cons d m ih =>
    obtain ⟨j, v⟩ := d
    simp only [set]
    split
    · rename_i hlt
      refine wf_cons (fun c hc => ?_) h
      rcases List.mem_cons.mp hc with rfl | hc
      · exact hlt
      · exact lt_trans hlt (wf_lt h c hc)
    · split
      · rename_i heq; subst heq; exact wf_cons (wf_lt h) (wf_tail h)
      · refine wf_cons (fun c hc => ?_) (ih (wf_tail h))
        rcases mem_set hc with rfl | hc
        · simp only; omega
        · exact wf_lt h c hc

/-- Writing a sequence keeps the canonical form. -/
theorem wf_write {m : Memory} (h : wf m = true) (a : Nat) (s : List Byte) :
    wf (write m a s) = true := by
  induction s generalizing m a with
  | nil => exact h
  | cons b s ih => exact ih (wf_set h a b) (a + 1)

/-- Writing inside the size keeps the memory inside it. -/
theorem within_write {m : Memory} {size : Nat} (h : Within m size) {a : Nat} {s : List Byte}
    (hs : a + s.length ≤ size) : Within (write m a s) size := by
  induction s generalizing m a with
  | nil => exact h
  | cons b s ih =>
    simp only [List.length_cons] at hs
    refine ih (fun c hc => ?_) (by omega)
    rcases mem_set hc with rfl | hc
    · simp only; omega
    · exact h c hc

/-- Equal memories are equal data. -/
theorem ext_of_wf {m n : Memory} (hm : wf m = true) (hn : wf n = true)
    (h : ∀ a, m.get? a = n.get? a) : m = n := by
  induction m generalizing n with
  | nil =>
    cases n with
    | nil => rfl
    | cons d n => obtain ⟨j, w⟩ := d; have := h j; simp [get?_cons] at this
  | cons c m ih =>
    obtain ⟨k, v⟩ := c
    cases n with
    | nil => have := h k; simp [get?_cons] at this
    | cons d n =>
      obtain ⟨j, w⟩ := d
      have hk : k = j := by
        rcases lt_trichotomy k j with hlt | heq | hgt
        · have h1 := h k
          rw [get?_cons, if_pos rfl, get?_cons, if_neg (by omega),
            get?_eq_none_of_lt fun c hc => lt_trans hlt (wf_lt hn c hc)] at h1
          simp at h1
        · exact heq
        · have h1 := h j
          rw [get?_cons, if_neg (by omega), get?_cons, if_pos rfl,
            get?_eq_none_of_lt fun c hc => lt_trans hgt (wf_lt hm c hc)] at h1
          simp at h1
      subst hk
      have hv : v = w := by simpa [get?_cons] using h k
      subst hv
      congr 1
      refine ih (wf_tail hm) (wf_tail hn) fun a => ?_
      by_cases ha : k = a
      · subst ha
        rw [get?_eq_none_of_lt (wf_lt hm), get?_eq_none_of_lt (wf_lt hn)]
      · simpa [get?_cons, ha] using h a

theorem bytes_zero (b : Buffer) (m : Memory) (a : Nat) : bytes b m a 0 = .ok [] := rfl

/-- Reading n bytes gives s exactly when s has length n and the memory holds it there. -/
theorem bytes_eq_ok_iff (b : Buffer) (m : Memory) (a n : Nat) (s : List Byte) :
    bytes b m a n = .ok s ↔ s.length = n ∧ m.Holds a s := by
  induction n generalizing a s with
  | zero =>
    simp only [bytes, Except.ok.injEq]
    constructor
    · rintro rfl; exact ⟨rfl, by simp [Holds]⟩
    · rintro ⟨h, -⟩; exact (List.length_eq_zero_iff.mp h).symm
  | succ n ih =>
    simp only [bytes]
    cases hv : m.get? a with
    | none =>
      simp only [reduceCtorEq, false_iff, not_and]
      intro hs hh
      have := hh 0 (by omega)
      rw [Nat.add_zero, hv] at this
      cases s with
      | nil => simp at hs
      | cons x s => simp at this
    | some v =>
      simp only
      cases hr : bytes b m (a + 1) n with
      | error f =>
        simp only [reduceCtorEq, false_iff, not_and]
        intro hs hh
        cases s with
        | nil => simp at hs
        | cons x s =>
          have : bytes b m (a + 1) n = .ok s := (ih (a + 1) s).mpr
            ⟨by simpa using hs, fun k hk => by
              have := hh (k + 1) (by simp; omega)
              rw [show a + 1 + k = a + (k + 1) by omega, this]; simp⟩
          rw [hr] at this; cases this
      | ok r =>
        simp only [Except.ok.injEq]
        have hr' := (ih (a + 1) r).mp hr
        constructor
        · rintro rfl
          refine ⟨by simp [hr'.1], fun k hk => ?_⟩
          cases k with
          | zero => simpa using hv
          | succ k =>
            have := hr'.2 k (by simpa using hk)
            rw [show a + (k + 1) = a + 1 + k by omega, this]; simp
        · rintro ⟨hs, hh⟩
          cases s with
          | nil => simp at hs
          | cons x s =>
            have hx : x = v := by
              have := hh 0 (by simp)
              rw [Nat.add_zero, hv] at this; simpa using this.symm
            subst hx
            have : bytes b m (a + 1) n = .ok s := (ih (a + 1) s).mpr
              ⟨by simpa using hs, fun k hk => by
                have := hh (k + 1) (by simp; omega)
                rw [show a + 1 + k = a + (k + 1) by omega, this]; simp⟩
            rw [hr] at this; cases this; rfl

/-- Bytes that have been written can be read. -/
theorem exists_holds {m : Memory} {n : Nat} (h : m.Written n) {a k : Nat} (hk : a + k ≤ n) :
    ∃ s, s.length = k ∧ m.Holds a s := by
  induction k generalizing a with
  | zero => exact ⟨[], rfl, by simp [Holds]⟩
  | succ k ih =>
    obtain ⟨s, hs, hh⟩ := ih (a := a + 1) (by omega)
    obtain ⟨v, hv⟩ := Option.isSome_iff_exists.mp (h a (by omega))
    refine ⟨v :: s, by simp [hs], fun j hj => ?_⟩
    cases j with
    | zero => simpa using hv
    | succ j =>
      have := hh j (by simpa using hj)
      rw [show a + (j + 1) = a + 1 + j by omega, this]; simp

end Memory

/-- MemRead answers s exactly when the range lies in the memory and the memory holds s there. -/
theorem memRead_eq_ok_iff (b : Buffer) (size : Nat) (m : Memory) (a n : Nat) (s : List Byte) :
    memRead b size m a n = .ok s ↔ a + n ≤ size ∧ s.length = n ∧ m.Holds a s := by
  unfold memRead
  split
  · rename_i h; rw [Memory.bytes_eq_ok_iff]; simp [h]
  · rename_i h; simp [h]

/-- MemWrite answers m' exactly when the range lies in the memory and m' is the write. -/
theorem memWrite_eq_ok_iff (b : Buffer) (size : Nat) (m : Memory) (a : Nat) (s : List Byte) (m' : Memory) :
    memWrite b size m a s = .ok m' ↔ a + s.length ≤ size ∧ m' = m.write a s := by
  unfold memWrite
  split
  · rename_i h; simp [h, eq_comm]
  · rename_i h; simp [h]

end Sys2Proof.Machine
end

