-- ==== Sys2Proof/Laws/Exec.lean ====
section
/-! SUPPORT. What the shared operations and the meanings answer: for each one lemma that says everything it can do
when it answers a next state. -/

namespace Sys2Proof.Machine

variable {s t : State}

/-! ## Faulting operations -/

@[simp] theorem orFault_ok {α : Type} (a : α) (k : α → Out) : orFault (.ok a) k = k a := rfl

@[simp] theorem orFault_error {α : Type} (f : Fault) (k : α → Out) : orFault (.error f) k = .fault f := rfl

theorem orFault_eq_next {α : Type} {r : Except Fault α} {k : α → Out} :
    orFault r k = .next t ↔ ∃ a, r = .ok a ∧ k a = .next t := by
  cases r <;> simp

theorem seqAt_eq_ok_iff {l : List Byte} {i : Nat} {b : Byte} : seqAt l i = .ok b ↔ l[i]? = some b := by
  unfold seqAt
  cases h : l[i]? <;> simp

@[simp] theorem seqAt_cons_zero (b : Byte) (l : List Byte) : seqAt (b :: l) 0 = .ok b := rfl

@[simp] theorem slice_zero (l : List Byte) (j : Nat) : slice l 0 j = l.take j := rfl

theorem len8_toNat {n : Nat} (h : n ≤ 255) : (len8 n).toNat = n := by
  simp only [len8, BitVec.toNat_ofNat]; omega

/-! ## Classes of fragments -/

@[simp] theorem classify_delim (n : BitVec 8) : classify delim n = .leading := by simp [classify]

theorem classify_continuation {b : Byte} {n : BitVec 8} (hb : b ≠ delim) (hn : 0 < n.toNat) :
    classify b n = .continuation := by simp [classify, hb, hn]

theorem classify_stray {b : Byte} {n : BitVec 8} (hb : b ≠ delim) (hn : n.toNat = 0) :
    classify b n = .stray := by simp [classify, hb, hn]

/-! ## The pure commands -/

theorem execEscape_eq (cap : Byte) (d : List Byte) (s : State) :
    ∃ r : Result, execEscape cap d s = .next (s.complete r.code r.value r.data) ∧
      (r.code = .ok ∨ r.code = .overflow) := by
  unfold execEscape
  split
  · rename_i out _; exact ⟨⟨.ok, len8 out.length, out⟩, rfl, .inl rfl⟩
  · rename_i pre _; exact ⟨⟨.overflow, len8 pre.length, pre⟩, rfl, .inr rfl⟩

/-! ## QUEUE -/

theorem frameOf_length (ident : Ident) (flags : Byte) (e : List Byte) :
    (frameOf ident flags e).length = e.length + 6 := by
  simp [frameOf, frameBody]

/-- Everything QUEUE can do (42_transmit.md R158). -/
theorem execQueue_cases {ident : Ident} {flags : Byte} {d : List Byte}
    (h : execQueue ident flags d s = .next t) :
    (s.pending = true ∧ t = s.complete .busy 0#8 []) ∨
    (s.pending = false ∧ s.connected = false ∧ t = s.complete .notConnected 0#8 []) ∨
    (s.pending = false ∧ s.connected = true ∧
      (∃ pre, escCap d (s.config.txCap - frameOverhead) = .overflow pre) ∧
      t = s.complete .overflow 0#8 []) ∨
    (s.pending = false ∧ s.connected = true ∧ ∃ e,
      escCap d (s.config.txCap - frameOverhead) = .ok e ∧ e.length + 6 ≤ s.config.txCap ∧
      t = (s.commitFrame (s.txb.write 0 (frameOf ident flags e)) (e.length + 6)).complete .ok
        (len8 (e.length + 6)) []) := by
  unfold execQueue at h
  split at h
  · rename_i hp; cases h; exact .inl ⟨hp, rfl⟩
  · rename_i hp
    rw [Bool.not_eq_true] at hp
    split at h
    · rename_i hc; cases h; exact .inr (.inl ⟨hp, by simpa using hc, rfl⟩)
    · rename_i hc
      have hc : s.connected = true := by simpa using hc
      split at h
      · rename_i pre he; cases h; exact .inr (.inr (.inl ⟨hp, hc, ⟨pre, he⟩, rfl⟩))
      · rename_i e he
        obtain ⟨m, hm, h⟩ := orFault_eq_next.mp h
        rw [memWrite_eq_ok_iff, frameOf_length] at hm
        obtain ⟨hfit, rfl⟩ := hm
        rw [frameOf_length] at h
        cases h
        exact .inr (.inr (.inr ⟨hp, hc, e, he, by omega, rfl⟩))

/-- QUEUE where all its tests pass. -/
theorem execQueue_commit {ident : Ident} {flags : Byte} {d e : List Byte}
    (hp : s.pending = false) (hc : s.connected = true)
    (he : escCap d (s.config.txCap - frameOverhead) = .ok e) (hfit : e.length + 6 ≤ s.config.txCap) :
    execQueue ident flags d s =
      .next ((s.commitFrame (s.txb.write 0 (frameOf ident flags e)) (e.length + 6)).complete .ok
        (len8 (e.length + 6)) []) := by
  have hw : memWrite .txb s.config.txCap s.txb 0 (frameOf ident flags e) =
      .ok (s.txb.write 0 (frameOf ident flags e)) := by
    rw [memWrite_eq_ok_iff, frameOf_length]; exact ⟨by omega, rfl⟩
  simp [execQueue, hp, hc, he, hw, frameOf_length]

/-! ## PUMP -/

theorem chunkLen_eq_ok_iff {n : Nat} : chunkLen s = .ok n ↔
    s.txSent.toNat ≤ s.txLen.toNat ∧ n = min (s.txLen.toNat - s.txSent.toNat) s.config.chunkSize := by
  unfold chunkLen
  split
  · rename_i h; simp [h, eq_comm]
  · rename_i h; simp [h]

/-- Everything PUMP can do (42_transmit.md R166). -/
theorem execPump_cases (h : execPump s = .next t) :
    (s.pending = false ∧ t = s.complete .idle 0#8 []) ∨
    (s.pending = true ∧ ∃ n chunk,
      s.txSent.toNat ≤ s.txLen.toNat ∧
      n = min (s.txLen.toNat - s.txSent.toNat) s.config.chunkSize ∧
      s.txSent.toNat + n ≤ s.config.txCap ∧ chunk.length = n ∧ s.txb.Holds s.txSent.toNat chunk ∧
      ((s.resp = .accept ∧
        t = ((s.drawn.emit (.txChunk chunk)).advance (s.txSent.toNat + n)).complete .ok (len8 n) []) ∨
       (s.resp = .exhaust ∧
        t = (s.drawn.advance (s.txSent.toNat + n)).complete .sendExhausted (len8 n) []))) := by
  unfold execPump at h
  split at h
  · rename_i hp
    obtain ⟨n, hn, h⟩ := orFault_eq_next.mp h
    obtain ⟨chunk, hc, h⟩ := orFault_eq_next.mp h
    rw [chunkLen_eq_ok_iff] at hn
    rw [memRead_eq_ok_iff] at hc
    refine .inr ⟨hp, n, chunk, hn.1, hn.2, hc.1, hc.2.1, hc.2.2, ?_⟩
    cases hr : s.resp <;> rw [hr] at h <;> cases h
    · exact .inl ⟨rfl, rfl⟩
    · exact .inr ⟨rfl, rfl⟩
  · rename_i hp; cases h; exact .inl ⟨by simpa using hp, rfl⟩

/-- PUMP with a frame pending whose next chunk can be read. -/
theorem execPump_pending {n : Nat} {chunk : List Byte} (hp : s.pending = true)
    (hle : s.txSent.toNat ≤ s.txLen.toNat)
    (hn : n = min (s.txLen.toNat - s.txSent.toNat) s.config.chunkSize)
    (hfit : s.txSent.toNat + n ≤ s.config.txCap) (hlen : chunk.length = n)
    (hh : s.txb.Holds s.txSent.toNat chunk) :
    execPump s = .next
      (((offerChunk s.resp chunk s.drawn).1.advance (s.txSent.toNat + n)).complete
        (offerChunk s.resp chunk s.drawn).2 (len8 n) []) := by
  have h1 : chunkLen s = .ok n := chunkLen_eq_ok_iff.mpr ⟨hle, hn⟩
  have h2 : memRead .txb s.config.txCap s.txb s.txSent.toNat n = .ok chunk :=
    (memRead_eq_ok_iff ..).mpr ⟨hfit, hlen, hh⟩
  simp [execPump, hp, h1, h2]

/-! ## INGEST -/

/-- At least four bytes are two identifier bytes, a flags byte, a payload and a checksum. -/
theorem exists_fields {u : List Byte} (h : 4 ≤ u.length) :
    ∃ (lo hi flags : Byte) (payload : List Byte) (rcv : Byte), u = [lo, hi, flags] ++ payload ++ [rcv] := by
  match u, h with
  | lo :: hi :: flags :: b :: l, _ =>
    refine ⟨lo, hi, flags, (b :: l).dropLast, (b :: l).getLast (by simp), ?_⟩
    simp [List.dropLast_concat_getLast]

/-- A complete frame of at least four unescaped bytes, field by field (43_receive.md R190 to R194). -/
theorem frameComplete_fields (lo hi flags : Byte) (payload : List Byte) (rcv : Byte) (n : Nat) (s : State) :
    frameComplete ([lo, hi, flags] ++ payload ++ [rcv]) n s =
      if crc8 ([lo, hi, flags] ++ payload) = rcv then
        .next (((s.emit (.rxPacket (identOf lo hi) flags payload)).withRxLen
          (if s.config.rxClearOnDispatch then 0 else n)).complete .dispatched (len8 payload.length) [])
      else .next (((s.withRxLen 0).emit .rxChecksumFail).complete .checksumMismatch 0#8 []) := by
  have hlen : ([lo, hi, flags] ++ payload ++ [rcv]).length = payload.length + 4 := by simp
  have hlast : seqAt ([lo, hi, flags] ++ payload ++ [rcv]) (payload.length + 4 - 1) = .ok rcv := by
    rw [seqAt_eq_ok_iff, List.getElem?_append_right (by simp)]; simp
  have htake : ([lo, hi, flags] ++ payload ++ [rcv]).take (payload.length + 4 - 1) =
      [lo, hi, flags] ++ payload := by
    rw [List.take_append_of_le_length (by simp)]; simp
  have hmid : slice ([lo, hi, flags] ++ payload ++ [rcv]) 3 (payload.length + 4 - 1) = payload := by
    rw [slice, htake]; rfl
  unfold frameComplete validate
  rw [if_neg (by rw [hlen]; omega), hlen, hlast, orFault_ok, slice_zero, htake, hmid]
  rfl

/-- Everything a complete frame can come to (43_receive.md R189 to R194). -/
theorem frameComplete_cases (u : List Byte) (n : Nat) (s : State) :
    (u.length < 4 ∧ frameComplete u n s = .next ((s.withRxLen 0).complete .runt (len8 u.length) [])) ∨
    (∃ body rcv, u = body ++ [rcv] ∧ 3 ≤ body.length ∧ crc8 body ≠ rcv ∧
      frameComplete u n s =
        .next (((s.withRxLen 0).emit .rxChecksumFail).complete .checksumMismatch 0#8 [])) ∨
    (∃ lo hi flags payload, u = [lo, hi, flags] ++ payload ++ [crc8 ([lo, hi, flags] ++ payload)] ∧
      frameComplete u n s =
        .next (((s.emit (.rxPacket (identOf lo hi) flags payload)).withRxLen
          (if s.config.rxClearOnDispatch then 0 else n)).complete .dispatched (len8 payload.length) [])) := by
  by_cases h : u.length < 4
  · exact .inl ⟨h, by simp [frameComplete, h]⟩
  · obtain ⟨lo, hi, flags, payload, rcv, rfl⟩ := exists_fields (Nat.le_of_not_lt h)
    rw [frameComplete_fields]
    by_cases hc : crc8 ([lo, hi, flags] ++ payload) = rcv
    · subst hc; exact .inr (.inr ⟨lo, hi, flags, payload, rfl, if_pos rfl⟩)
    · exact .inr (.inl ⟨[lo, hi, flags] ++ payload, rcv, rfl, by simp, hc, if_neg hc⟩)

/-- After the store, where the frame is not complete (43_receive.md R186). -/
theorem afterStore_wait {n : Nat}
    (h : n < 2 ∨ n ≤ s.config.rxCap ∧ ∃ b, s.rxb.get? (n - 1) = some b ∧ b ≠ delim) :
    afterStore n s = .next ((s.withRxLen n).complete .assembling (len8 n) []) := by
  unfold afterStore
  by_cases h2 : n < 2
  · simp [h2]
  · obtain ⟨hle, b, hb, hne⟩ := h.resolve_left h2
    have hr : memRead .rxb s.config.rxCap s.rxb (n - 1) 1 = .ok [b] :=
      (memRead_eq_ok_iff ..).mpr ⟨by omega, rfl, fun k hk => by
        obtain rfl : k = 0 := by simpa using hk
        simpa using hb⟩
    simp [h2, hr, hne]

/-- After the store, where the frame is complete (43_receive.md R186 to R188). -/
theorem afterStore_complete {n : Nat} {span : List Byte} (h2 : 2 ≤ n) (hle : n ≤ s.config.rxCap)
    (hlast : s.rxb.get? (n - 1) = some delim) (hlen : span.length = n - 2) (hspan : s.rxb.Holds 1 span) :
    afterStore n s = frameComplete (unesc span) n s := by
  have hr : memRead .rxb s.config.rxCap s.rxb (n - 1) 1 = .ok [delim] :=
    (memRead_eq_ok_iff ..).mpr ⟨by omega, rfl, fun k hk => by
      obtain rfl : k = 0 := by simpa using hk
      simpa using hlast⟩
  have hs : memRead .rxb s.config.rxCap s.rxb 1 (n - 2) = .ok span :=
    (memRead_eq_ok_iff ..).mpr ⟨by omega, hlen, hspan⟩
  unfold afterStore
  simp [show ¬ n < 2 by omega, hr, hs]

/-- Everything that can follow the store (43_receive.md R186 to R194). -/
theorem afterStore_cases {n : Nat} (h : afterStore n s = .next t) :
    (n < 2 ∧ t = (s.withRxLen n).complete .assembling (len8 n) []) ∨
    (2 ≤ n ∧ n ≤ s.config.rxCap ∧ ∃ b, s.rxb.get? (n - 1) = some b ∧ b ≠ delim ∧
      t = (s.withRxLen n).complete .assembling (len8 n) []) ∨
    (2 ≤ n ∧ n ≤ s.config.rxCap ∧ s.rxb.get? (n - 1) = some delim ∧ ∃ span, span.length = n - 2 ∧
      s.rxb.Holds 1 span ∧ frameComplete (unesc span) n s = .next t) := by
  unfold afterStore at h
  simp only at h
  split at h
  · rename_i h2; cases h; exact .inl ⟨h2, rfl⟩
  · rename_i h2
    obtain ⟨last, hl, h⟩ := orFault_eq_next.mp h
    rw [memRead_eq_ok_iff] at hl
    obtain ⟨hle, hone, hh⟩ := hl
    obtain ⟨b, rfl⟩ := List.length_eq_one_iff.mp hone
    have hb : s.rxb.get? (n - 1) = some b := by simpa using hh 0 (by simp)
    split at h
    · rename_i hne; cases h
      exact .inr (.inl ⟨by omega, by omega, b, hb, by simpa using hne, rfl⟩)
    · rename_i he
      obtain rfl : b = delim := by simpa using he
      obtain ⟨span, hs, h⟩ := orFault_eq_next.mp h
      rw [memRead_eq_ok_iff] at hs
      exact .inr (.inr ⟨by omega, by omega, hb, span, hs.2.1, hs.2.2, h⟩)

/-- Where INGEST stores a fragment: at offset 0 for a leading one, at rx_len for a continuation
(43_receive.md R183, R184). -/
theorem execIngest_cases {fragment : List Byte} (h : execIngest fragment s = .next t) :
    fragment ≠ [] ∧
    ((fragment.head? ≠ some delim ∧ s.rxLen.toNat = 0 ∧ t = s.complete .discarded 0#8 []) ∨
     ((fragment.head? = some delim ∧ s.config.rxCap < fragment.length ∨
       fragment.head? ≠ some delim ∧ 0 < s.rxLen.toNat ∧
         s.config.rxCap < s.rxLen.toNat + fragment.length) ∧
      t = (s.withRxLen 0).complete .rxOverflow 0#8 []) ∨
     (∃ base, (fragment.head? = some delim ∧ base = 0 ∨
        fragment.head? ≠ some delim ∧ 0 < s.rxLen.toNat ∧ base = s.rxLen.toNat) ∧
      base + fragment.length ≤ s.config.rxCap ∧
      afterStore (base + fragment.length) (s.withRxb (s.rxb.write base fragment)) = .next t)) := by
  unfold execIngest at h
  obtain ⟨first, hf, h⟩ := orFault_eq_next.mp h
  rw [seqAt_eq_ok_iff] at hf
  cases fragment with
  | nil => simp at hf
  | cons b l =>
    obtain rfl : b = first := by simpa using hf
    refine ⟨by simp, ?_⟩
    simp only [List.head?_cons, ne_eq, Option.some.injEq]
    by_cases hb : b = delim
    · subst hb
      rw [classify_delim] at h
      simp only at h
      split at h
      · rename_i ho; cases h; exact .inr (.inl ⟨.inl ⟨rfl, ho⟩, rfl⟩)
      · obtain ⟨m, hm, h⟩ := orFault_eq_next.mp h
        obtain ⟨hfit, rfl⟩ := (memWrite_eq_ok_iff ..).mp hm
        refine .inr (.inr ⟨0, .inl ⟨rfl, rfl⟩, hfit, ?_⟩)
        rw [Nat.zero_add]; exact h
    · by_cases hn : 0 < s.rxLen.toNat
      · rw [classify_continuation hb hn] at h
        simp only at h
        split at h
        · rename_i ho; cases h; exact .inr (.inl ⟨.inr ⟨hb, hn, ho⟩, rfl⟩)
        · obtain ⟨m, hm, h⟩ := orFault_eq_next.mp h
          obtain ⟨hfit, rfl⟩ := (memWrite_eq_ok_iff ..).mp hm
          exact .inr (.inr ⟨s.rxLen.toNat, .inr ⟨hb, hn, rfl⟩, hfit, h⟩)
      · rw [classify_stray hb (by omega)] at h
        cases h
        exact .inl ⟨hb, by omega, rfl⟩

/-- INGEST of a fragment that is stored (43_receive.md R183, R184, R186). -/
theorem execIngest_store {fragment : List Byte} {base : Nat} (hne : fragment ≠ [])
    (hbase : fragment.head? = some delim ∧ base = 0 ∨
      fragment.head? ≠ some delim ∧ 0 < s.rxLen.toNat ∧ base = s.rxLen.toNat)
    (hfit : base + fragment.length ≤ s.config.rxCap) :
    execIngest fragment s =
      afterStore (base + fragment.length) (s.withRxb (s.rxb.write base fragment)) := by
  have hw : memWrite .rxb s.config.rxCap s.rxb base fragment = .ok (s.rxb.write base fragment) :=
    (memWrite_eq_ok_iff ..).mpr ⟨hfit, rfl⟩
  cases fragment with
  | nil => exact absurd rfl hne
  | cons b l =>
    simp only [List.head?_cons, ne_eq, Option.some.injEq] at hbase
    unfold execIngest
    rw [seqAt_cons_zero, orFault_ok]
    rcases hbase with ⟨rfl, rfl⟩ | ⟨hb, hn, rfl⟩
    · rw [classify_delim]; simp only
      rw [if_neg (by omega), hw, Nat.zero_add]; rfl
    · rw [classify_continuation hb hn]; simp only
      rw [if_neg (by omega), hw]; rfl

/-! ## The step -/

theorem step_nil (h : s.port = []) : step s = .next s := by simp [step, h]

theorem step_cons {c : Cmd} {rest : List Cmd} (h : s.port = c :: rest) :
    step s = execCmd c (s.withPort rest) := by simp [step, h]

theorem execCmd_instr {c : Cmd} {i : Instr} (h : c.decode = .instr i) (s : State) :
    execCmd c s = exec i s := by simp [execCmd, h]

theorem execCmd_illegal {c : Cmd} {why : Illegal} (h : c.decode = .illegal why) (s : State) :
    execCmd c s = .next (s.complete .illegal 0#8 []) := by simp [execCmd, h, execIllegal]

/-- The step that the host's word leads to (log 8). -/
theorem step_withFetchWord (s : State) (nbits w : Nat) :
    step (s.withFetchWord nbits w) = execCmd (tableCmd nbits w) s := rfl

/-! ## Runs -/

theorem core_run_succ (M : Host.Core) (n : Nat) (s : M.State) :
    M.run (n + 1) s =
      match M.step s with
      | .next t => M.run n t
      | .fault f => .fault f
      | .refused r => .refused r := rfl

/-- A run goes on from the state its first step leads to. -/
theorem run_succ_next (n : Nat) (h : step s = .next t) :
    Sys2Proof.core.run (n + 1) s = Sys2Proof.core.run n t := by
  have h' : Sys2Proof.core.step s = .next t := h
  rw [core_run_succ Sys2Proof.core n s, h']

/-- A run whose first step does not answer a next state does not either. -/
theorem run_succ_eq_next {n : Nat} {u : State} (h : Sys2Proof.core.run (n + 1) s = .next u) :
    ∃ t, step s = .next t ∧ Sys2Proof.core.run n t = .next u := by
  rw [core_run_succ Sys2Proof.core n s] at h
  cases hs : Sys2Proof.core.step s with
  | next t => rw [hs] at h; exact ⟨t, hs, h⟩
  | fault f => rw [hs] at h; cases h
  | refused r => rw [hs] at h; cases h

/-! ## Sequences of commands -/

@[simp] theorem execAll_nil (s : State) : execAll [] s = .next s := rfl

theorem execAll_cons_next {i : Instr} {is : List Instr} (h : exec i s = .next t) :
    execAll (i :: is) s = execAll is t := by simp [execAll, h]

theorem execAll_cons_eq_next {i : Instr} {is : List Instr} {u : State} :
    execAll (i :: is) s = .next u ↔ ∃ t, exec i s = .next t ∧ execAll is t = .next u := by
  rw [execAll]
  cases exec i s <;> simp

theorem execAll_append_next {is js : List Instr} (h : execAll is s = .next t) :
    execAll (is ++ js) s = execAll js t := by
  induction is generalizing s with
  | nil => cases h; rfl
  | cons i is ih =>
    obtain ⟨r, hr, h⟩ := execAll_cons_eq_next.mp h
    rw [List.cons_append, execAll_cons_next hr, ih h]

end Sys2Proof.Machine
end

