-- ==== Sys2Proof/Laws/Codec.lean ====
section
/-! SUPPORT. The codec's functions, one byte or one pair at a time, and what RXB holds once INGEST has stored a
fragment. -/

namespace Sys2Proof.Machine

/-- The three forms of an escaped byte (41_codec.md R120). -/
theorem escByte_cases (b : Byte) :
    (b = delim ∧ escByte b = [esc, escDelim]) ∨ (b = esc ∧ escByte b = [esc, escEsc]) ∨
      (b ≠ delim ∧ b ≠ esc ∧ escByte b = [b]) := by
  unfold escByte
  split
  · simp_all
  · split <;> simp_all

@[simp] theorem escSeq_nil : escSeq [] = [] := rfl

@[simp] theorem escSeq_cons (b : Byte) (s : List Byte) : escSeq (b :: s) = escByte b ++ escSeq s := rfl

theorem escSeq_append (s t : List Byte) : escSeq (s ++ t) = escSeq s ++ escSeq t := by
  induction s with
  | nil => rfl
  | cons b s ih => simp [ih]

@[simp] theorem replacePass_nil (x y r : Byte) : replacePass x y r [] = [] := rfl

@[simp] theorem replacePass_singleton (x y r a : Byte) : replacePass x y r [a] = [a] := rfl

/-- A pair is replaced. -/
theorem replacePass_pair (x y r : Byte) (s : List Byte) :
    replacePass x y r (x :: y :: s) = r :: replacePass x y r s := by simp [replacePass]

/-- A byte that does not begin a pair is copied. -/
theorem replacePass_cons_ne {x y r a : Byte} (h : a ≠ x) (s : List Byte) :
    replacePass x y r (a :: s) = a :: replacePass x y r s := by
  cases s <;> simp [replacePass, h]

/-- A byte before one that does not end a pair is copied. -/
theorem replacePass_cons_cons_ne {x y r b : Byte} (h : b ≠ y) (a : Byte) (s : List Byte) :
    replacePass x y r (a :: b :: s) = a :: replacePass x y r (b :: s) := by
  simp [replacePass, h]

/-- INGEST of a fragment that fits stores it: RXB then reads as the accumulated bytes below their length and as before
from there on (43_receive.md R183, R184). -/
theorem execIngest_accumulates {s : State} {fragment buf : List Byte} (h : s.Accumulates fragment buf)
    (hfit : buf.length ≤ s.config.rxCap) :
    ∃ rxb, execIngest fragment s = afterStore buf.length (s.withRxb rxb) ∧
      ∀ a, rxb.get? a = if a < buf.length then buf[a]? else s.rxb.get? a := by
  rcases h with ⟨hh, rfl⟩ | ⟨hh, hne, hpos, old, hlen, hold, rfl⟩
  · have e := execIngest_store (s := s) (fragment := buf) (base := 0) (by rintro rfl; simp at hh)
      (.inl ⟨hh, rfl⟩) (by omega)
    refine ⟨_, by rw [e, Nat.zero_add], fun a => ?_⟩
    rw [Memory.get?_write]; simp
  · have e := execIngest_store (s := s) (fragment := fragment) (base := s.rxLen.toNat) hne
      (.inr ⟨hh, hpos, rfl⟩) (by simp at hfit; omega)
    refine ⟨_, by rw [e, List.length_append, hlen], fun a => ?_⟩
    rw [Memory.get?_write, List.length_append, hlen, List.getElem?_append]
    by_cases h1 : a < s.rxLen.toNat
    · rw [if_neg (by omega), if_pos (by omega), if_pos (by omega), ← hold a (by omega), Nat.zero_add]
    · by_cases h2 : a < s.rxLen.toNat + fragment.length
      · rw [if_pos (by omega), if_pos (by omega), if_neg (by omega), hlen]
      · rw [if_neg (by omega), if_neg (by omega)]

end Sys2Proof.Machine
end

