-- ==== Sys2Proof/Laws/Decode.lean ====
section
/-! SUPPORT. The fields of a command word, and what the masks of 30_encoding.md R84 test in terms of them. -/

namespace Sys2Proof

theorem append_inj_iff {n m : Nat} {a b : BitVec n} {c d : BitVec m} :
    a ++ c = b ++ d ↔ a = b ∧ c = d := by
  constructor
  · intro h
    have h1 := congrArg (BitVec.extractLsb' 0 m) h
    have h2 := congrArg (BitVec.extractLsb' m n) h
    simp only [BitVec.extractLsb'_append_eq_right, BitVec.extractLsb'_append_eq_left] at h1 h2
    exact ⟨h2, h1⟩
  · rintro ⟨rfl, rfl⟩; rfl

variable (id16 : Ident) (arg8 : Byte) (rsv op : BitVec 4)

@[simp] theorem opField_fieldsWord : opField (fieldsWord id16 arg8 rsv op) = op :=
  BitVec.extractLsb'_append_eq_right

/-- A word is one with its own fields. -/
theorem fieldsWord_fields (w : Word) :
    fieldsWord (identField w) (arg8Field w) (rsvField w) (opField w) = w := by
  unfold fieldsWord identField arg8Field rsvField opField
  ext i hi
  simp only [BitVec.getElem_append, BitVec.getElem_extractLsb']
  split
  · simp [BitVec.getLsbD_eq_getElem hi]
  · split
    · simp [show 4 + (i - 4) = i by omega, BitVec.getLsbD_eq_getElem hi]
    · split
      · simp [show 8 + (i - 4 - 4) = i by omega, BitVec.getLsbD_eq_getElem hi]
      · simp [show 16 + (i - 4 - 4 - 8) = i by omega, BitVec.getLsbD_eq_getElem hi]

theorem fieldsWord_inj {id16 id16' : Ident} {arg8 arg8' : Byte} {rsv rsv' op op' : BitVec 4} :
    fieldsWord id16 arg8 rsv op = fieldsWord id16' arg8' rsv' op' ↔
      id16 = id16' ∧ arg8 = arg8' ∧ rsv = rsv' ∧ op = op' := by
  unfold fieldsWord
  refine append_inj_iff.trans ?_
  rw [append_inj_iff, append_inj_iff, and_assoc, and_assoc]

theorem fieldsWord_eta_iff {w : Word} :
    w = fieldsWord id16 arg8 rsv op ↔
      identField w = id16 ∧ arg8Field w = arg8 ∧ rsvField w = rsv ∧ opField w = op := by
  conv_lhs => lhs; rw [← fieldsWord_fields w]
  exact fieldsWord_inj

@[simp] theorem identField_fieldsWord : identField (fieldsWord id16 arg8 rsv op) = id16 :=
  ((fieldsWord_eta_iff id16 arg8 rsv op).mp rfl).1

@[simp] theorem arg8Field_fieldsWord : arg8Field (fieldsWord id16 arg8 rsv op) = arg8 :=
  ((fieldsWord_eta_iff id16 arg8 rsv op).mp rfl).2.1

@[simp] theorem rsvField_fieldsWord : rsvField (fieldsWord id16 arg8 rsv op) = rsv :=
  ((fieldsWord_eta_iff id16 arg8 rsv op).mp rfl).2.2.1

theorem fieldsWord_and (m1 : Ident) (m2 : Byte) (m3 m4 : BitVec 4) :
    fieldsWord id16 arg8 rsv op &&& fieldsWord m1 m2 m3 m4 =
      fieldsWord (id16 &&& m1) (arg8 &&& m2) (rsv &&& m3) (op &&& m4) := by
  unfold fieldsWord
  refine (BitVec.and_append (w := 28) (v := 4)).trans ?_
  congr 1
  refine (BitVec.and_append (w := 24) (v := 4)).trans ?_
  congr 1
  exact BitVec.and_append

variable (w : Word)

/-- A mask that covers every bit tests every field. -/
theorem full_mask_iff (k : BitVec 4) :
    w &&& 0xFFFFFFFF#32 = fieldsWord 0#16 0#8 0#4 k ↔
      identField w = 0#16 ∧ arg8Field w = 0#8 ∧ rsvField w = 0#4 ∧ opField w = k := by
  rw [show (0xFFFFFFFF#32 : Word) = BitVec.allOnes 32 from rfl, BitVec.and_allOnes]
  exact fieldsWord_eta_iff ..

/-- ESCAPE's mask leaves ARG8 free. -/
theorem escape_mask_iff (k : BitVec 4) :
    w &&& 0xFFFF00FF#32 = fieldsWord 0#16 0#8 0#4 k ↔
      identField w = 0#16 ∧ rsvField w = 0#4 ∧ opField w = k := by
  conv_lhs => lhs; rw [← fieldsWord_fields w]
  rw [show (0xFFFF00FF#32 : Word) = fieldsWord 0xFFFF#16 0#8 0xF#4 0xF#4 from rfl, fieldsWord_and,
    fieldsWord_inj]
  simp only [show (0xFFFF#16) = BitVec.allOnes 16 from rfl, show (0xF#4) = BitVec.allOnes 4 from rfl,
    BitVec.and_allOnes, BitVec.and_zero, true_and]

/-- QUEUE's mask leaves ID16 and ARG8 free. -/
theorem queue_mask_iff (k : BitVec 4) :
    w &&& 0x000000FF#32 = fieldsWord 0#16 0#8 0#4 k ↔ rsvField w = 0#4 ∧ opField w = k := by
  conv_lhs => lhs; rw [← fieldsWord_fields w]
  rw [show (0x000000FF#32 : Word) = fieldsWord 0#16 0#8 0xF#4 0xF#4 from rfl, fieldsWord_and,
    fieldsWord_inj]
  simp only [show (0xF#4) = BitVec.allOnes 4 from rfl, BitVec.and_allOnes, BitVec.and_zero, true_and]

/-- Which row a word selects, in terms of its fields. -/
theorem find_row (w : Word) :
    opcodeRows.find? (fun r => r.selects w) =
      if identField w = 0#16 ∧ arg8Field w = 0#8 ∧ rsvField w = 0#4 ∧ opField w = 0x1#4 then opcodeRows[0]?
      else if identField w = 0#16 ∧ rsvField w = 0#4 ∧ opField w = 0x2#4 then opcodeRows[1]?
      else if identField w = 0#16 ∧ arg8Field w = 0#8 ∧ rsvField w = 0#4 ∧ opField w = 0x3#4 then opcodeRows[2]?
      else if rsvField w = 0#4 ∧ opField w = 0x4#4 then opcodeRows[3]?
      else if identField w = 0#16 ∧ arg8Field w = 0#8 ∧ rsvField w = 0#4 ∧ opField w = 0x5#4 then opcodeRows[4]?
      else if identField w = 0#16 ∧ arg8Field w = 0#8 ∧ rsvField w = 0#4 ∧ opField w = 0x6#4 then opcodeRows[5]?
      else if identField w = 0#16 ∧ arg8Field w = 0#8 ∧ rsvField w = 0#4 ∧ opField w = 0x7#4 then opcodeRows[6]?
      else if identField w = 0#16 ∧ arg8Field w = 0#8 ∧ rsvField w = 0#4 ∧ opField w = 0x8#4 then opcodeRows[7]?
      else if identField w = 0#16 ∧ arg8Field w = 0#8 ∧ rsvField w = 0#4 ∧ opField w = 0x9#4 then opcodeRows[8]?
      else none := by
  have step : ∀ (r : OpRow) (rows : List OpRow) (p : Prop) [Decidable p], (w &&& r.mask = r.pattern ↔ p) →
      (r :: rows).find? (fun r => r.selects w) = if p then some r else rows.find? (fun r => r.selects w) := by
    intro r rows p _ hp
    by_cases h : p
    · simp [OpRow.selects, hp.mpr h, h]
    · have : ¬ (w &&& r.mask = r.pattern) := fun hh => h (hp.mp hh)
      simp [OpRow.selects, this, h]
  refine (step _ _ _ (full_mask_iff w 0x1#4)).trans (if_congr Iff.rfl rfl ?_)
  refine (step _ _ _ (escape_mask_iff w 0x2#4)).trans (if_congr Iff.rfl rfl ?_)
  refine (step _ _ _ (full_mask_iff w 0x3#4)).trans (if_congr Iff.rfl rfl ?_)
  refine (step _ _ _ (queue_mask_iff w 0x4#4)).trans (if_congr Iff.rfl rfl ?_)
  refine (step _ _ _ (full_mask_iff w 0x5#4)).trans (if_congr Iff.rfl rfl ?_)
  refine (step _ _ _ (full_mask_iff w 0x6#4)).trans (if_congr Iff.rfl rfl ?_)
  refine (step _ _ _ (full_mask_iff w 0x7#4)).trans (if_congr Iff.rfl rfl ?_)
  refine (step _ _ _ (full_mask_iff w 0x8#4)).trans (if_congr Iff.rfl rfl ?_)
  exact step _ [] _ (full_mask_iff w 0x9#4)

/-- Decoding in terms of the word's fields (30_encoding.md R81, R83). -/
theorem decode_eq (w : Word) (d : List Byte) :
    decode w d =
      if identField w = 0#16 ∧ arg8Field w = 0#8 ∧ rsvField w = 0#4 ∧ opField w = 0x1#4 then
        if d.length ≤ dataMax then .instr (.crc8 d) else .illegal .dataLength
      else if identField w = 0#16 ∧ rsvField w = 0#4 ∧ opField w = 0x2#4 then
        if d.length ≤ dataMax then .instr (.escape (arg8Field w) d) else .illegal .dataLength
      else if identField w = 0#16 ∧ arg8Field w = 0#8 ∧ rsvField w = 0#4 ∧ opField w = 0x3#4 then
        if d.length ≤ dataMax then .instr (.unescape d) else .illegal .dataLength
      else if rsvField w = 0#4 ∧ opField w = 0x4#4 then
        if d.length ≤ dataMax then .instr (.queue (identField w) (arg8Field w) d) else .illegal .dataLength
      else if identField w = 0#16 ∧ arg8Field w = 0#8 ∧ rsvField w = 0#4 ∧ opField w = 0x5#4 then
        if d.length = 0 then .instr .pump else .illegal .dataLength
      else if identField w = 0#16 ∧ arg8Field w = 0#8 ∧ rsvField w = 0#4 ∧ opField w = 0x6#4 then
        if 1 ≤ d.length ∧ d.length ≤ dataMax then .instr (.ingest d) else .illegal .dataLength
      else if identField w = 0#16 ∧ arg8Field w = 0#8 ∧ rsvField w = 0#4 ∧ opField w = 0x7#4 then
        if d.length = 0 then .instr .connect else .illegal .dataLength
      else if identField w = 0#16 ∧ arg8Field w = 0#8 ∧ rsvField w = 0#4 ∧ opField w = 0x8#4 then
        if d.length = 0 then .instr .disconnect else .illegal .dataLength
      else if identField w = 0#16 ∧ arg8Field w = 0#8 ∧ rsvField w = 0#4 ∧ opField w = 0x9#4 then
        if d.length = 0 then .instr .readStatus else .illegal .dataLength
      else .illegal .noRowMatches := by
  have row : ∀ (p q : Prop) [Decidable p] [Decidable q] (r : OpRow) (i : Instr) (rest : Option OpRow) (e : Decoded),
      (r.admits d = true ↔ q) → r.build w d = i →
      (match rest with
        | none => Decoded.illegal .noRowMatches
        | some r => if r.admits d then .instr (r.build w d) else .illegal .dataLength) = e →
      (match (if p then some r else rest) with
        | none => Decoded.illegal .noRowMatches
        | some r => if r.admits d then .instr (r.build w d) else .illegal .dataLength) =
        if p then if q then .instr i else .illegal .dataLength else e := by
    intro p q _ _ r i rest e hq hi he
    by_cases h : p
    · simp only [if_pos h, hi]; exact if_congr hq rfl rfl
    · simp only [if_neg h]; exact he
  have any : ∀ n : Nat, (decide (0 ≤ d.length) && decide (d.length ≤ n)) = true ↔ d.length ≤ n := by simp
  have zero : (decide (0 ≤ d.length) && decide (d.length ≤ 0)) = true ↔ d.length = 0 := by simp
  have some' : (decide (1 ≤ d.length) && decide (d.length ≤ dataMax)) = true ↔
      1 ≤ d.length ∧ d.length ≤ dataMax := by simp
  unfold decode
  rw [find_row]
  exact row _ _ _ _ _ _ (any _) rfl <| row _ _ _ _ _ _ (any _) rfl <| row _ _ _ _ _ _ (any _) rfl <|
    row _ _ _ _ _ _ (any _) rfl <| row _ _ _ _ _ _ zero rfl <| row _ _ _ _ _ _ some' rfl <|
    row _ _ _ _ _ _ zero rfl <| row _ _ _ _ _ _ zero rfl <| row _ _ _ _ none _ zero rfl rfl

end Sys2Proof
end

