-- ==== Sys2Proof/Laws/PerInstr.lean ====
section
/-! SUPPORT. The family of lemmas made per command (LAWS.json): the encoding of a well-formed command selects the
row of the table that bears its mnemonic, and the row admits its data length (30_encoding.md R83, R84). -/

namespace Sys2Proof.Laws.RowOfTheTable

/-- The encoding of i lies in the row of i's mnemonic. -/
def Statement (i : Instr) : Prop :=
  i.wf = true → ∃ r ∈ opcodeRows, r.mnemonic = i.mnemonic ∧
    r.selects (encode i).word = true ∧ r.admits (encode i).data = true

/-- A row lemma from the row's mask test. -/
theorem of_row {i : Instr} (r : OpRow) (hr : r ∈ opcodeRows) (hm : r.mnemonic = i.mnemonic)
    (hs : (encode i).word &&& r.mask = r.pattern)
    (ha : i.wf = true → r.minLen ≤ (encode i).data.length ∧ (encode i).data.length ≤ r.maxLen) :
    Statement i :=
  fun hw => ⟨r, hr, hm, by simp [OpRow.selects, hs], by simp [OpRow.admits, ha hw]⟩

theorem crc8 (d : List Byte) : Statement (.crc8 d) :=
  of_row opcodeRows[0] (List.getElem_mem _) rfl
    (by decide : (commandWord 0#16 0#8 1#4 &&& 0xFFFFFFFF#32 : Word) = 1#32)
    (fun h => ⟨Nat.zero_le _, of_decide_eq_true h⟩)

theorem escape (cap : Byte) (d : List Byte) : Statement (.escape cap d) :=
  of_row opcodeRows[1] (List.getElem_mem _) rfl
    ((escape_mask_iff _ 0x2#4).mpr (by simp [encode, commandWord]))
    (fun h => ⟨Nat.zero_le _, of_decide_eq_true h⟩)

theorem unescape (d : List Byte) : Statement (.unescape d) :=
  of_row opcodeRows[2] (List.getElem_mem _) rfl
    (by decide : (commandWord 0#16 0#8 3#4 &&& 0xFFFFFFFF#32 : Word) = 3#32)
    (fun h => ⟨Nat.zero_le _, of_decide_eq_true h⟩)

theorem queue (ident : Ident) (flags : Byte) (d : List Byte) : Statement (.queue ident flags d) :=
  of_row opcodeRows[3] (List.getElem_mem _) rfl
    ((queue_mask_iff _ 0x4#4).mpr (by simp [encode, commandWord]))
    (fun h => ⟨Nat.zero_le _, of_decide_eq_true h⟩)

theorem pump : Statement .pump :=
  of_row opcodeRows[4] (List.getElem_mem _) rfl rfl (fun _ => ⟨Nat.le_refl _, Nat.le_refl _⟩)

theorem ingest (f : List Byte) : Statement (.ingest f) :=
  of_row opcodeRows[5] (List.getElem_mem _) rfl
    (by decide : (commandWord 0#16 0#8 6#4 &&& 0xFFFFFFFF#32 : Word) = 6#32)
    (fun h => ⟨of_decide_eq_true ((Bool.and_eq_true _ _).mp h).1, of_decide_eq_true ((Bool.and_eq_true _ _).mp h).2⟩)

theorem connect : Statement .connect :=
  of_row opcodeRows[6] (List.getElem_mem _) rfl rfl (fun _ => ⟨Nat.le_refl _, Nat.le_refl _⟩)

theorem disconnect : Statement .disconnect :=
  of_row opcodeRows[7] (List.getElem_mem _) rfl rfl (fun _ => ⟨Nat.le_refl _, Nat.le_refl _⟩)

theorem readStatus : Statement .readStatus :=
  of_row opcodeRows[8] (List.getElem_mem _) rfl rfl (fun _ => ⟨Nat.le_refl _, Nat.le_refl _⟩)

end Sys2Proof.Laws.RowOfTheTable
end

