-- ==== Sys2Proof/Tests/Slice0.lean ====
section
/-! SUPPORT. The model's own tests. Every expected value comes from spec/95_test_vectors.md (the vector's id stands in
the comment) or from the rule named. Each `witness_<Name>` shows values that meet the hypotheses of
Obligations.<Name>, clause by clause, at the ends of the ranges. -/

namespace Sys2Proof.Machine.Tests

/-! ## Small states -/

/-- Reset; CONNECT. -/
def up : State := { State.reset with connected := true }

/-- The 9-byte frame of V-X1. -/
def frameX1 : List Byte := [0xC0#8, 0x34#8, 0x12#8, 0x01#8, 0xDB#8, 0xDC#8, 0x01#8, 0xD2#8, 0xC0#8]

/-- V-X1 queued, with these answers of the transport in store. -/
def queued (answers : List Resp) : State :=
  { up with
    txb := Memory.write [] 0 frameX1
    txLen := 9#8
    pending := true
    answers := answers }

/-- V-L4: reset; INGEST [C0 34 12]. -/
def assembling : State :=
  { State.reset with rxb := [(0, 0xC0#8), (1, 0x34#8), (2, 0x12#8)], rxLen := 3#8 }

/-- The reference configuration with another RX_CAP. -/
def withRxCap (n : Nat) (h : 2 ≤ n ∧ n ≤ 255 := by decide) : Config :=
  { Config.reference with rxCap := n, rxCap_range := h }

/-- V-L4's state at the end of its buffer: RX_CAP = 3. -/
def assemblingFull : State := { assembling with config := withRxCap 3 }

/-- V-L4's state in a block of its own whose RXB an 8-byte frame fills: RX_CAP = 8. -/
def receiver8 : State := { assembling with config := withRxCap 8 }

/-- A command waiting at the port of a state. -/
def atPort (s : State) (c : Cmd) : State := { s with port := [c] }

/-- What a test looks at: results, events, and STATUS, tx_len, tx_sent, rx_len. -/
def seen (o : Out) : Option (List Result × List Event × List Byte) :=
  match o with
  | .next t => some (t.results, t.trace, [t.status, t.txLen, t.txSent, t.rxLen])
  | .fault _ => none
  | .refused _ => none

/-- TXB's first n bytes after a step. -/
def txbOf (n : Nat) (o : Out) : Option (List Byte) :=
  match o with
  | .next t => some ((t.txb.take n).map Prod.snd)
  | .fault _ => none
  | .refused _ => none

/-! ## Well-formedness refuses (30_encoding.md R80, R83) -/

theorem test_wf_refuses_long_crc8 : (Instr.crc8 (List.replicate 256 0#8)).wf = false := by decide +kernel
theorem test_wf_refuses_long_escape : (Instr.escape 0#8 (List.replicate 256 0#8)).wf = false := by
  decide +kernel
theorem test_wf_refuses_long_unescape : (Instr.unescape (List.replicate 256 0#8)).wf = false := by
  decide +kernel
theorem test_wf_refuses_long_queue : (Instr.queue 0#16 0#8 (List.replicate 256 0#8)).wf = false := by
  decide +kernel
theorem test_wf_refuses_long_ingest : (Instr.ingest (List.replicate 256 0#8)).wf = false := by
  decide +kernel
theorem test_wf_refuses_empty_ingest : (Instr.ingest []).wf = false := by decide
theorem test_wf_refuses_long_cmd : (Cmd.mk 1#32 (List.replicate 256 0#8)).wf = false := by decide +kernel
theorem test_wf_admits_255 : (Instr.ingest (List.replicate 255 0#8)).wf = true := by decide +kernel
/-- Values one step outside the ranges of 00_scope.md R7 are no configuration. -/
theorem test_config_refuses (c : Config) :
    c.txCap ≠ 5 ∧ c.txCap ≠ 256 ∧ c.rxCap ≠ 1 ∧ c.rxCap ≠ 256 ∧ c.chunkSize ≠ 0 ∧ c.chunkSize ≠ 256 ∧
    c.retryMax ≠ 0 ∧ c.requiresAckMask ≠ 0x00#8 ∧ c.requiresAckMask ≠ 0x01#8 ∧ c.requiresAckMask ≠ 0x03#8 := by
  have h1 := c.txCap_range
  have h2 := c.rxCap_range
  have h3 := c.chunkSize_range
  have h4 := c.retryMax_range
  have h5 := c.requiresAckMask_range
  refine ⟨by omega, by omega, by omega, by omega, by omega, by omega, by omega, ?_, ?_, ?_⟩ <;>
    (intro h; rw [h] at h5; exact absurd h5 (by decide))

/-- The ends of the ranges are configurations: their constraints are decided where they are written. -/
def smallest : Config :=
  { txCap := 6, rxCap := 2, chunkSize := 1, retryMax := 1, rxClearOnDispatch := false, requiresAckMask := 0x02#8 }

/-- The upper ends. -/
def largest : Config :=
  { txCap := 255, rxCap := 255, chunkSize := 255, retryMax := 1000, rxClearOnDispatch := true,
    requiresAckMask := 0x80#8 }

theorem test_config_ends : smallest ≠ largest := by decide

/-! ## Decoding (V-D1 to V-D17, and the rows the vectors leave out) -/

theorem test_decode_crc8 : decode 0x00000001#32 [0x01#8] = .instr (.crc8 [0x01#8]) := by decide
theorem test_decode_crc8_255 :                                                            -- V-D16
    decode 0x00000001#32 (List.replicate 255 0xFF#8) = .instr (.crc8 (List.replicate 255 0xFF#8)) := by
  decide +kernel
theorem test_decode_escape : decode 0x0000FF02#32 [0x01#8] = .instr (.escape 0xFF#8 [0x01#8]) := by decide  -- V-D7
theorem test_decode_unescape : decode 0x00000003#32 [0xDB#8] = .instr (.unescape [0xDB#8]) := by decide
theorem test_decode_queue :                                                               -- V-D9
    decode 0x12340104#32 [0xC0#8, 0x01#8] = .instr (.queue 0x1234#16 0x01#8 [0xC0#8, 0x01#8]) := by decide
theorem test_decode_queue_ones : decode 0xFFFFFF04#32 [] = .instr (.queue 0xFFFF#16 0xFF#8 []) := by decide -- V-D10
theorem test_decode_pump : decode 0x00000005#32 [] = .instr .pump := by decide
theorem test_decode_ingest : decode 0x00000006#32 [0xC0#8] = .instr (.ingest [0xC0#8]) := by decide         -- V-D14
theorem test_decode_connect : decode 0x00000007#32 [] = .instr .connect := by decide
theorem test_decode_disconnect : decode 0x00000008#32 [] = .instr .disconnect := by decide                  -- V-D17
theorem test_decode_readStatus : decode 0x00000009#32 [] = .instr .readStatus := by decide
/-- V-D1 to V-D6, V-D8, V-D11, V-D15. -/
theorem test_decode_no_row :
    [decode 0x00000000#32 [], decode 0x0000000A#32 [], decode 0x0000000F#32 [],
     decode 0x00000011#32 [0x01#8], decode 0x00000101#32 [0x01#8], decode 0x00010001#32 [],
     decode 0x00010002#32 [0x01#8], decode 0xFFFFFFF4#32 [], decode 0x00000109#32 []] =
      List.replicate 9 (.illegal .noRowMatches) := by decide
/-- V-D12, V-D13, and the empty-vector rows of R83. -/
theorem test_decode_length :
    [decode 0x00000005#32 [0x00#8], decode 0x00000006#32 [], decode 0x00000007#32 [0x00#8],
     decode 0x00000008#32 [0x00#8], decode 0x00000009#32 [0x00#8]] =
      List.replicate 5 (.illegal .dataLength) := by decide
/-- A vector the port cannot carry (log 7). -/
theorem test_decode_256 : decode 0x00000001#32 (List.replicate 256 0#8) = .illegal .dataLength := by
  decide +kernel

/-- The words of V-E13, V-Q13 and V-D14, from the encoder. -/
theorem test_encode_words :
    [(encode (.escape 6#8 [0xC0#8])).word, (encode (.queue 0xDCDB#16 0x00#8 [0x01#8])).word,
     (encode (.ingest [0xC0#8])).word] = [0x00000602#32, 0xDCDB0004#32, 0x00000006#32] := by decide

/-- Each row's word, with the shortest data vector it admits (log 8). -/
theorem test_table_words :
    [decodeTableWord 32 1, decodeTableWord 32 0x602, decodeTableWord 32 3, decodeTableWord 32 0x12340104,
     decodeTableWord 32 5, decodeTableWord 32 6, decodeTableWord 32 7, decodeTableWord 32 8,
     decodeTableWord 32 9, decodeTableWord 32 0] =
    [some (.crc8 []), some (.escape 6#8 []), some (.unescape []), some (.queue 0x1234#16 1#8 []),
     some .pump, some (.ingest [0#8]), some .connect, some .disconnect, some .readStatus, none] := by
  decide

/-- The very next step runs the placed word (READ_STATUS at reset: V-L1). -/
theorem test_withFetchWord :
    seen (step (State.reset.withFetchWord 32 9)) =
      some ([⟨.ok, 0x00#8, [0#8, 0#8, 0#8]⟩], [], [0#8, 0#8, 0#8, 0#8]) := by decide

/-- The text forms of 95_test_vectors.md (R89): V-X1, V-E6, V-L1, V-R25. -/
theorem test_text :
    [(encode (.queue 0x1234#16 0x01#8 [0xC0#8, 0x01#8])).text, (encode (.escape 2#8 [0xC0#8])).text,
     (encode .readStatus).text, (Cmd.mk 0x00000006#32 []).text] =
    ["QUEUE id=0x1234, flags=0x01, [C0 01]".toList, "ESCAPE cap=2, [C0]".toList, "READ_STATUS".toList,
     ".cmd 0x00000006, []".toList] := by decide +kernel

/-! ## One step of each command -/

theorem test_crc8_example :                                                               -- V-C9
    seen (exec (.crc8 [0x34#8, 0x12#8, 0x01#8, 0xDB#8, 0xDC#8, 0x01#8]) State.reset) =
      some ([⟨.ok, 0xD2#8, []⟩], [], [0#8, 0#8, 0#8, 0#8]) := by decide +kernel
theorem test_crc8_digits :                                                                -- V-C12
    crc8 [0x31#8, 0x32#8, 0x33#8, 0x34#8, 0x35#8, 0x36#8, 0x37#8, 0x38#8, 0x39#8] = 0xA1#8 := by
  decide +kernel

theorem test_escape_overflow :                                                            -- V-E14
    seen (exec (.escape 5#8 [0xC0#8, 0xDB#8, 0xC0#8]) State.reset) =
      some ([⟨.overflow, 4#8, [0xDB#8, 0xDC#8, 0xDB#8, 0xDD#8]⟩], [], [0#8, 0#8, 0#8, 0#8]) := by decide
theorem test_escape_boundary :                                                            -- V-E11
    seen (exec (.escape 2#8 [0x01#8, 0xC0#8]) State.reset) =
      some ([⟨.overflow, 1#8, [0x01#8]⟩], [], [0#8, 0#8, 0#8, 0#8]) := by decide

theorem test_unescape_order :                                                             -- V-U6
    seen (exec (.unescape [0xDB#8, 0xDD#8, 0xDC#8]) State.reset) =
      some ([⟨.ok, 2#8, [0xDB#8, 0xDC#8]⟩], [], [0#8, 0#8, 0#8, 0#8]) := by decide
theorem test_unescape_mixed :                                                             -- V-U14
    unesc [0xDB#8, 0xDC#8, 0xDB#8, 0xDD#8, 0x00#8, 0xDD#8, 0xDB#8, 0xDC#8] =
      [0xC0#8, 0xDB#8, 0x00#8, 0xDD#8, 0xC0#8] := by decide

theorem test_queue_example :                                                              -- V-X1
    seen (exec (.queue 0x1234#16 0x01#8 [0xC0#8, 0x01#8]) up) =
      some ([⟨.ok, 9#8, []⟩], [], [3#8, 9#8, 0#8, 0#8]) ∧
    txbOf 9 (exec (.queue 0x1234#16 0x01#8 [0xC0#8, 0x01#8]) up) = some frameX1 := by decide +kernel
theorem test_queue_raw_header :                                                           -- V-Q4
    txbOf 7 (exec (.queue 0x00C0#16 0xDB#8 [0x01#8]) up) =
      some [0xC0#8, 0xC0#8, 0x00#8, 0xDB#8, 0x01#8, 0x1C#8, 0xC0#8] := by decide +kernel

theorem test_pump_accept :                                                                -- V-P2
    seen (exec .pump (queued [.accept])) =
      some ([⟨.ok, 9#8, []⟩], [.txChunk frameX1], [2#8, 9#8, 9#8, 0#8]) := by decide
theorem test_pump_exhaust :                                                               -- V-P7
    seen (exec .pump (queued [.exhaust])) =
      some ([⟨.sendExhausted, 9#8, []⟩], [], [2#8, 9#8, 9#8, 0#8]) := by decide

theorem test_ingest_dispatch :                                                            -- V-R2
    seen (exec (.ingest [0xC0#8, 0x34#8, 0x12#8, 0x01#8, 0x05#8, 0x06#8, 0x2D#8, 0xC0#8]) State.reset) =
      some ([⟨.dispatched, 2#8, []⟩], [.rxPacket 0x1234#16 0x01#8 [0x05#8, 0x06#8]],
        [0#8, 0#8, 0#8, 0#8]) := by decide +kernel
theorem test_ingest_scope_asymmetry :                                                     -- V-R3
    seen (exec (.ingest frameX1) State.reset) =
      some ([⟨.checksumMismatch, 0#8, []⟩], [.rxChecksumFail], [0#8, 0#8, 0#8, 0#8]) := by decide +kernel

theorem test_connect :                                                                    -- V-L2
    seen (exec .connect State.reset) = some ([⟨.ok, 0#8, []⟩], [], [2#8, 0#8, 0#8, 0#8]) := by decide

theorem test_disconnect_pending :                                                         -- V-P9
    seen (exec .disconnect (queued [])) = some ([⟨.ok, 0#8, []⟩], [], [0#8, 9#8, 0#8, 0#8]) := by decide
theorem test_disconnect_assembling :                                                      -- V-L4
    seen (exec .disconnect assembling) = some ([⟨.ok, 0#8, []⟩], [], [0#8, 0#8, 0#8, 0#8]) := by decide

theorem test_readStatus_pending :                                                         -- V-L6
    seen (exec .readStatus (queued [])) =
      some ([⟨.ok, 0x03#8, [9#8, 0#8, 0#8]⟩], [], [3#8, 9#8, 0#8, 0#8]) := by decide
theorem test_readStatus_assembling :                                                      -- V-L4
    seen (exec .readStatus assembling) =
      some ([⟨.ok, 0x04#8, [0#8, 0#8, 3#8]⟩], [], [4#8, 0#8, 0#8, 3#8]) := by decide

theorem test_illegal_step :                                                               -- V-R25
    seen (step (atPort State.reset ⟨0x00000006#32, []⟩)) =
      some ([⟨.illegal, 0#8, []⟩], [], [0#8, 0#8, 0#8, 0#8]) := by decide

/-- ACCEPT within RETRY_MAX attempts, EXHAUST when all are refused (42_transmit.md R160; log 12). -/
theorem test_attempts :
    Resp.ofAttempts 3 [false, false, true] = .accept ∧
    Resp.ofAttempts 2 [false, false, true] = .exhaust := by decide

/-- The memories at reset are in canonical form. -/
theorem test_reset_memories : State.reset.txb.wf = true ∧ State.reset.rxb.wf = true := by decide

/-! ## Witnesses: encoding, step, runs -/

theorem witness_DecodeInvertsEncode :
    (Instr.queue 0xFFFF#16 0xFF#8 (List.replicate 255 0#8)).wf = true ∧
    (Instr.ingest [0xC0#8]).wf = true ∧ Instr.pump.wf = true := by decide +kernel

theorem witness_OneWordForEachCommand :
    (Cmd.mk 0x0000FF02#32 [0x01#8]).decode = .instr (.escape 0xFF#8 [0x01#8]) := by decide

/-- A vector of 255 bytes, a legal and an illegal command. -/
theorem witness_IllegalCommands :
    (Cmd.mk 0x00000005#32 (List.replicate 255 0#8)).data.length ≤ 255 ∧
    (Cmd.mk 0x00000005#32 (List.replicate 255 0#8)).decode = .illegal .dataLength ∧
    (Cmd.mk 0x00000001#32 (List.replicate 255 0#8)).decode = .instr (.crc8 (List.replicate 255 0#8)) ∧
    (Cmd.mk 0x0000000A#32 []).decode = .illegal .noRowMatches := by decide +kernel

theorem witness_StepRunsTheDecodedCommand :
    (atPort up ⟨0x00000009#32, []⟩).port = ⟨0x00000009#32, []⟩ :: [] ∧
    (Cmd.mk 0x00000009#32 []).decode = .instr .readStatus ∧
    (atPort up ⟨0x0000000A#32, []⟩).port = ⟨0x0000000A#32, []⟩ :: [] ∧
    (Cmd.mk 0x0000000A#32 []).decode = .illegal .noRowMatches := by decide

theorem witness_IdleBlockKeepsItsState : State.reset.port = [] := by decide

/-- The invariant holds with a frame pending. -/
theorem inv_queued : (queued [.accept]).Inv where
  txb_wf := by decide
  rxb_wf := by decide
  txb_within := by decide
  rxb_within := by decide
  txLen_le := by decide
  txSent_le := by decide
  pending_connected := by decide
  pending_len := by decide
  pending_sent := by decide
  pending_written := by decide
  pending_delims := by decide
  rxLen_le := by decide
  rxb_written := by decide
  rx_leading := by decide
  rx_incomplete := by decide

/-- The invariant holds while a frame is reassembled, also at the end of RXB. -/
theorem inv_assemblingFull : assemblingFull.Inv where
  txb_wf := by decide
  rxb_wf := by decide
  txb_within := by decide
  rxb_within := by decide
  txLen_le := by decide
  txSent_le := by decide
  pending_connected := by decide
  pending_len := by decide
  pending_sent := by decide
  pending_written := by decide
  pending_delims := by decide
  rxLen_le := by decide
  rxb_written := by decide
  rx_leading := by decide
  rx_incomplete := by decide

theorem witness_EveryStepKeepsTheInvariant : ∃ s t : State, s.Inv ∧ s.pending = true ∧ step s = .next t :=
  ⟨_, _, inv_queued, rfl, rfl⟩

theorem witness_NoStepStops : (queued [.accept]).Inv ∧ assemblingFull.Inv := ⟨inv_queued, inv_assemblingFull⟩

/-- CONNECT; QUEUE leaves a frame pending. -/
theorem witness_TransmitInvariants :
    ∃ t, runOf Config.reference [⟨0x00000007#32, []⟩, ⟨0x00000004#32, []⟩] [] 2 = .next t ∧ t.pending = true :=
  ⟨_, rfl, rfl⟩

/-- INGEST [C0 34] leaves 2 bytes in RXB. -/
theorem witness_ReceiveInvariants :
    Config.reference.rxClearOnDispatch = true ∧
    ∃ t, runOf Config.reference [⟨0x00000006#32, [0xC0#8, 0x34#8]⟩] [] 1 = .next t ∧ 2 ≤ t.rxLen.toNat :=
  ⟨by decide, _, rfl, by decide⟩

/-! ## Witnesses: the generator and the codec -/

theorem witness_CrcLaws :
    [0x01#8, 0x00#8].length = [0x00#8, 0x02#8].length ∧ [0xC0#8][0]? = some 0xC0#8 ∧ 7 < 8 := by decide

theorem witness_Crc8Command : (List.replicate 255 0xFF#8).length ≤ 255 := by decide +kernel

theorem witness_EscapedFormShape : (escSeq [0xC0#8])[0]? = some 0xDB#8 := by decide

/-- Exactly the capacity, and one byte less (V-E13, V-E14). -/
theorem witness_EscapingStopsBeforeTheByteThatDoesNotFit :
    (escSeq [0xC0#8, 0xDB#8, 0xC0#8]).length ≤ 6 ∧ 5 < (escSeq [0xC0#8, 0xDB#8, 0xC0#8]).length := by decide

/-- A vector of 255 bytes; exactly the capacity, and one byte less; capacity 0. -/
theorem witness_EscapeCommand :
    (List.replicate 255 0#8).length ≤ 255 ∧
    (escSeq [0xC0#8, 0xDB#8, 0xC0#8]).length ≤ (6#8).toNat ∧
    (5#8).toNat < (escSeq [0xC0#8, 0xDB#8, 0xC0#8]).length ∧
    (0#8).toNat < (escSeq [0x01#8]).length ∧ (escSeq []).length ≤ (0#8).toNat := by decide +kernel

/-- Malformed escapes: ESC and an ordinary byte, and a trailing ESC. -/
theorem witness_UnpairedEscapesPassThrough : NoEscapePair [0xDB#8, 0x41#8, 0xDB#8] := by
  intro k h
  match k with
  | 0 => decide
  | 1 => exact absurd h (by decide)
  | 2 => decide
  | k + 3 => exact absurd h (by simp)

theorem witness_UnescapeCommand : (List.replicate 255 0xDB#8).length ≤ 255 := by decide +kernel

/-! ## Witnesses: QUEUE and PUMP -/

theorem witness_QueueWhilePendingIsBusy : (queued []).pending = true := by decide

theorem witness_QueueNeedsTheConnection :
    State.reset.pending = false ∧ State.reset.connected = false := by decide

/-- One byte too many (V-Q7). -/
theorem witness_QueueOverflowChangesNothing :
    up.pending = false ∧ up.connected = true ∧
    up.config.txCap - 6 < (escSeq (List.replicate 59 0x11#8)).length := by decide +kernel

/-- The largest payload (V-Q6), and the smallest. -/
theorem witness_QueueWritesTheFrame :
    up.pending = false ∧ up.connected = true ∧
    (escSeq (List.replicate 58 0x11#8)).length ≤ up.config.txCap - 6 ∧
    (escSeq []).length ≤ up.config.txCap - 6 := by decide +kernel

/-- Both delimiters, a raw header byte, a raw checksum byte (V-Q5); and an ESC in the payload (V-X1). -/
theorem witness_DelimitersInsideAQueuedFrame :
    (frameOf 0xC0C0#16 0xC0#8 (escSeq []))[1]? = some 0xC0#8 ∧
    (frameOf 0xC0C0#16 0xC0#8 (escSeq []))[3]? = some 0xC0#8 ∧
    (frameOf 0x005C#16 0x00#8 (escSeq []))[4]? = some 0xC0#8 ∧
    (frameOf 0x005C#16 0x00#8 (escSeq []))[5]? = some 0xC0#8 ∧
    (frameOf 0x1234#16 0x01#8 (escSeq [0xC0#8, 0x01#8]))[0 + 4]? = some 0xDB#8 ∧
    0 < (escSeq [0xC0#8, 0x01#8]).length := by decide +kernel

theorem witness_PumpWithNothingPending : up.pending = false := by decide

/-- Each answer, and none listed. -/
theorem witness_PumpOffersOneChunk :
    (queued []).pending = true ∧
    (queued []).txSent.toNat < (queued []).txLen.toNat ∧ (queued []).txLen.toNat ≤ (queued []).config.txCap ∧
    9 = min ((queued []).txLen.toNat - (queued []).txSent.toNat) (queued []).config.chunkSize ∧
    frameX1.length = 9 ∧ (queued []).txb.Holds (queued []).txSent.toNat frameX1 ∧
    (queued [.accept]).answers.head? = some .accept ∧ (queued [.exhaust]).answers.head? = some .exhaust ∧
    (queued []).answers = [] := by decide

theorem witness_PumpsReadTheFrameOut :
    (queued [.accept]).Inv ∧ (queued [.accept]).pending = true ∧ (queued [.accept]).txSent = 0#8 :=
  ⟨inv_queued, by decide, by decide⟩

theorem witness_AcceptedChunksSpellTheFrame :
    (queued [.accept]).Inv ∧ (queued [.accept]).pending = true ∧ (queued [.accept]).txSent = 0#8 ∧
    1 = ((queued [.accept]).txLen.toNat + (queued [.accept]).config.chunkSize - 1) /
      (queued [.accept]).config.chunkSize ∧
    (queued [.accept]).answers.take 1 = List.replicate 1 .accept ∧
    frameX1.length = (queued [.accept]).txLen.toNat ∧ (queued [.accept]).txb.Holds 0 frameX1 :=
  ⟨inv_queued, by decide, by decide, by decide, by decide, by decide, by decide⟩

/-! ## Witnesses: INGEST -/

theorem witness_StrayFragmentIsDiscarded : 0x01#8 ≠ 0xC0#8 ∧ State.reset.rxLen = 0#8 := by decide

/-- A leading fragment one byte too long (V-R18), and a continuation that would reach one byte too many. -/
theorem witness_FragmentThatDoesNotFitIsDropped :
    0xC0#8 = 0xC0#8 ∧ State.reset.config.rxCap < (0xC0#8 :: List.replicate 64 0x01#8).length ∧
    0x02#8 ≠ 0xC0#8 ∧ 0 < assemblingFull.rxLen.toNat ∧
    assemblingFull.config.rxCap < assemblingFull.rxLen.toNat + [0x02#8].length := by decide +kernel

/-- `[C0]` alone (V-R8: shorter than 2), and a continuation whose last byte is no DELIM and that fills RXB (V-R20). -/
theorem witness_IncompleteFrameWaits :
    State.reset.Accumulates [0xC0#8] [0xC0#8] ∧
    [0xC0#8].length ≤ State.reset.config.rxCap ∧ [0xC0#8].length < 2 ∧
    assembling.Accumulates (List.replicate 61 0x02#8)
      ([0xC0#8, 0x34#8, 0x12#8] ++ List.replicate 61 0x02#8) ∧
    ([0xC0#8, 0x34#8, 0x12#8] ++ List.replicate 61 0x02#8).length = assembling.config.rxCap ∧
    ([0xC0#8, 0x34#8, 0x12#8] ++ List.replicate 61 0x02#8).getLast? ≠ some 0xC0#8 :=
  ⟨.inl ⟨by decide, rfl⟩, by decide, by decide,
    .inr ⟨by decide, by decide, by decide, [0xC0#8, 0x34#8, 0x12#8], by decide, by decide, rfl⟩,
    by decide +kernel, by decide +kernel⟩

/-- The empty span (V-R9) and a span of 3 bytes (V-R11). -/
theorem witness_RuntFrameIsDropped :
    State.reset.Accumulates [0xC0#8, 0xC0#8] ([0xC0#8] ++ [] ++ [0xC0#8]) ∧
    0 + 2 ≤ State.reset.config.rxCap ∧ (unesc []).length < 4 ∧
    State.reset.Accumulates [0xC0#8, 0x01#8, 0x02#8, 0x03#8, 0xC0#8]
      ([0xC0#8] ++ [0x01#8, 0x02#8, 0x03#8] ++ [0xC0#8]) ∧
    (unesc [0x01#8, 0x02#8, 0x03#8]).length < 4 :=
  ⟨.inl ⟨by decide, rfl⟩, by decide, by decide, .inl ⟨by decide, rfl⟩, by decide⟩

/-- V-R12, and the shortest frame that is validated. -/
theorem witness_BadChecksumIsRejected :
    State.reset.Accumulates [0xC0#8, 0x34#8, 0x12#8, 0x01#8, 0x05#8, 0x06#8, 0x99#8, 0xC0#8]
      ([0xC0#8] ++ [0x34#8, 0x12#8, 0x01#8, 0x05#8, 0x06#8, 0x99#8] ++ [0xC0#8]) ∧
    6 + 2 ≤ State.reset.config.rxCap ∧
    unesc [0x34#8, 0x12#8, 0x01#8, 0x05#8, 0x06#8, 0x99#8] =
      [0x34#8, 0x12#8, 0x01#8, 0x05#8, 0x06#8] ++ [0x99#8] ∧
    3 ≤ [0x34#8, 0x12#8, 0x01#8].length ∧
    crc8 [0x34#8, 0x12#8, 0x01#8, 0x05#8, 0x06#8] ≠ 0x99#8 :=
  ⟨.inl ⟨by decide, rfl⟩, by decide, by decide, by decide, by decide +kernel⟩

/-- V-R1, second fragment: a continuation that completes a frame. -/
theorem witness_GoodFrameIsDispatched :
    assembling.Accumulates [0x01#8, 0x05#8, 0x06#8, 0x2D#8, 0xC0#8]
      ([0xC0#8] ++ [0x34#8, 0x12#8, 0x01#8, 0x05#8, 0x06#8, 0x2D#8] ++ [0xC0#8]) ∧
    6 + 2 ≤ assembling.config.rxCap ∧
    unesc [0x34#8, 0x12#8, 0x01#8, 0x05#8, 0x06#8, 0x2D#8] =
      [0x34#8, 0x12#8, 0x01#8] ++ [0x05#8, 0x06#8] ++
        [crc8 ([0x34#8, 0x12#8, 0x01#8] ++ [0x05#8, 0x06#8])] :=
  ⟨.inr ⟨by decide, by decide, by decide, [0xC0#8, 0x34#8, 0x12#8], by decide, by decide, rfl⟩,
    by decide, by decide +kernel⟩

/-- A leading fragment, a continuation, a stray one. -/
theorem witness_IngestTouchesOnlyTheReceiver :
    (∃ t, exec (.ingest [0xC0#8]) assembling = .next t) ∧ [0xC0#8].head? = some 0xC0#8 ∧ 1 ≤ [0xC0#8].length ∧
    (∃ t, exec (.ingest [0x01#8]) assembling = .next t) ∧ [0x01#8].head? ≠ some 0xC0#8 ∧
    2 < assembling.rxLen.toNat ∧ assembling.rxLen.toNat + [0x01#8].length ≤ 4 ∧
    (∃ t, exec (.ingest [0x01#8]) State.reset = .next t) ∧ State.reset.rxLen = 0#8 :=
  ⟨⟨_, rfl⟩, by decide, by decide, ⟨_, rfl⟩, by decide, by decide, by decide, ⟨_, rfl⟩, by decide⟩

theorem witness_ReceiverTransitions :
    ∃ t r, exec (.ingest [0x01#8]) assembling = .next t ∧ t.results = assembling.results ++ [r] :=
  ⟨_, _, rfl, rfl⟩

/-- A fragment that ends the reassembly, and a DISCONNECT. -/
theorem witness_NothingElseEndsAReassembly :
    0 < assembling.rxLen.toNat ∧
    (∃ t r, exec (.ingest [0xC0#8, 0xC0#8]) assembling = .next t ∧ t.results = assembling.results ++ [r] ∧
      t.rxLen.toNat = 0) ∧
    (∃ t r, exec .disconnect assembling = .next t ∧ t.results = assembling.results ++ [r] ∧
      t.rxLen.toNat = 0) :=
  ⟨by decide, ⟨_, _, rfl, rfl, rfl⟩, ⟨_, _, rfl, rfl, rfl⟩⟩

/-- V-Q1, and a receiver of its own whose RXB the frame fills, with another frame in progress. -/
theorem witness_QueuedFrameIsDispatchedIntact :
    up.pending = false ∧ up.connected = true ∧
    [0x05#8, 0x06#8].length + 6 ≤ up.config.txCap ∧
    [0x05#8, 0x06#8].length + 6 = receiver8.config.rxCap ∧ receiver8.rxLen = 3#8 ∧ 0xC0#8 ∉ [0x05#8, 0x06#8] ∧ 0xDB#8 ∉ [0x05#8, 0x06#8] ∧
    [0x34#8, 0x12#8, 0x01#8, 0x05#8, 0x06#8] =
      [(0x1234#16).extractLsb' 0 8, (0x1234#16).extractLsb' 8 8, 0x01#8] ++ [0x05#8, 0x06#8] ∧
    NoEscapePair ([0x34#8, 0x12#8, 0x01#8, 0x05#8, 0x06#8] ++
      [crc8 [0x34#8, 0x12#8, 0x01#8, 0x05#8, 0x06#8]]) := by
  refine ⟨by decide, by decide, by decide, by decide, by decide, by decide, by decide, by decide, ?_⟩
  rw [show crc8 [0x34#8, 0x12#8, 0x01#8, 0x05#8, 0x06#8] = 0x2D#8 by decide +kernel]
  intro k h
  match k with
  | 0 => exact absurd h (by decide)
  | 1 => exact absurd h (by decide)
  | 2 => exact absurd h (by decide)
  | 3 => exact absurd h (by decide)
  | 4 => exact absurd h (by decide)
  | 5 => exact absurd h (by decide)
  | k + 6 => exact absurd h (by simp)

/-- V-R1's split. -/
def split2 : List (List Byte) := [[0xC0#8, 0x34#8, 0x12#8], [0x01#8, 0x05#8, 0x06#8, 0x2D#8, 0xC0#8]]

/-- The same frame in three fragments. -/
def split3 : List (List Byte) :=
  [[0xC0#8, 0x34#8], [0x12#8, 0x01#8, 0x05#8], [0x06#8, 0x2D#8, 0xC0#8]]

/-- Two fragments, and three that fill RXB. -/
theorem witness_CleanSplitsKeepTheOutcome :
    (∀ f ∈ split2, f ≠ []) ∧ split2.flatten.head? = some 0xC0#8 ∧
    (∀ f ∈ split2.tail, f.head? ≠ some 0xC0#8) ∧ (∀ f ∈ split2.dropLast, f.getLast? ≠ some 0xC0#8) ∧
    split2.flatten.length ≤ State.reset.config.rxCap ∧
    (∀ f ∈ split3, f ≠ []) ∧ split3.flatten.head? = some 0xC0#8 ∧
    (∀ f ∈ split3.tail, f.head? ≠ some 0xC0#8) ∧ (∀ f ∈ split3.dropLast, f.getLast? ≠ some 0xC0#8) ∧
    split3.flatten.length = receiver8.config.rxCap := by decide

/-! ## Witnesses: link state, status, whole-machine rules -/

/-- STATUS is 0x03 with a frame pending (V-L6); the largest payload that fits. -/
theorem witness_DisconnectAbortsSendAndReassembly :
    (queued []).status = 0x03#8 ∧
    (escSeq (List.replicate 58 0x11#8)).length ≤ (queued []).config.txCap - 6 := by decide +kernel

theorem witness_CommandsAfterADisconnect : 0x34#8 ≠ 0xC0#8 := by decide

theorem witness_StatusFields : 3 ≤ 3 ∧ (queued []).status.getLsbD 3 = false := by decide

theorem witness_OwnershipOfTheState :
    (∃ t, exec .pump (queued [.accept]) = .next t) ∧ (∃ t, exec .readStatus assembling = .next t) :=
  ⟨⟨_, rfl⟩, ⟨_, rfl⟩⟩

/-- Each event: a chunk, a packet (V-R4), a checksum failure (V-R12). -/
theorem witness_EventsOfACommand :
    (queued [.accept]).Inv ∧ (∃ t, exec .pump (queued [.accept]) = .next t) ∧
    seen (exec (.ingest [0xC0#8, 0x34#8, 0x12#8, 0x01#8, 0x63#8, 0xC0#8]) State.reset) =
      some ([⟨.dispatched, 0#8, []⟩], [.rxPacket 0x1234#16 0x01#8 []], [0#8, 0#8, 0#8, 0#8]) ∧
    seen (exec (.ingest [0xC0#8, 0x34#8, 0x12#8, 0x01#8, 0x99#8, 0xC0#8]) State.reset) =
      some ([⟨.checksumMismatch, 0#8, []⟩], [.rxChecksumFail], [0#8, 0#8, 0#8, 0#8]) :=
  ⟨inv_queued, ⟨_, rfl⟩, by decide +kernel, by decide +kernel⟩

theorem witness_ResultCodesByCommand :
    ∃ t r, exec .pump (queued [.exhaust]) = .next t ∧ t.results = (queued [.exhaust]).results ++ [r] ∧
      r.code = .sendExhausted := ⟨_, _, rfl, rfl, rfl⟩

theorem witness_ReadIdleStaysTrueUntilAQueue :
    up.pending = false ∧
    (∀ i ∈ [Instr.pump, .readStatus], ∀ ident flags d, i ≠ .queue ident flags d) ∧
    ∃ t u r, execAll [.pump, .readStatus] up = .next t ∧
      exec (.queue 0x5555#16 0x00#8 (List.replicate 59 0x11#8)) t = .next u ∧ u.results = t.results ++ [r] :=
  ⟨by decide, by simp, _, _, _, rfl, rfl, rfl⟩

theorem witness_UnpumpedFrameStaysPending :
    (queued []).pending = true ∧
    (∀ i ∈ [Instr.readStatus, .ingest [0x01#8], .queue 0x5555#16 0x00#8 [0x01#8]],
      i ≠ .pump ∧ i ≠ .disconnect) ∧
    ∃ t, execAll [.readStatus, .ingest [0x01#8], .queue 0x5555#16 0x00#8 [0x01#8]] (queued []) = .next t :=
  ⟨by decide, by decide, _, rfl⟩

/-- Two states that differ in tx_len, tx_sent and a stale byte of TXB, with nothing pending. -/
theorem witness_UnreadStateIsUnobservable :
    (Instr.ingest [0x01#8]).wf = true ∧ Instr.ingest [0x01#8] ≠ .readStatus ∧
    ∃ s s' : State, s.Inv ∧ s'.Inv ∧ s.Agrees s' ∧ s ≠ s' :=
  ⟨by decide, by decide, assemblingFull,
    { assemblingFull with txb := [(0, 0x99#8)], txLen := 9#8, txSent := 9#8 },
    inv_assemblingFull,
    { txb_wf := by decide, rxb_wf := by decide, txb_within := by decide,
      rxb_within := by decide, txLen_le := by decide, txSent_le := by decide,
      pending_connected := by decide, pending_len := by decide, pending_sent := by decide,
      pending_written := by decide, pending_delims := by decide, rxLen_le := by decide,
      rxb_written := by decide, rx_leading := by decide, rx_incomplete := by decide },
    { config := rfl, pending := rfl, connected := rfl, rxLen := rfl, rxb := fun _ _ => rfl,
      txLen := by decide, txSent := by decide, txb := by decide, port := rfl, answers := rfl,
      draws := rfl, results := rfl, trace := rfl },
    fun h => absurd (congrArg State.txLen h) (by decide)⟩

/-- Another RETRY_MAX and another mask. -/
def otherParameters : Config :=
  { txCap := 64, rxCap := 64, chunkSize := 20, retryMax := 1, rxClearOnDispatch := true, requiresAckMask := 0x02#8 }

theorem witness_ParametersAreInRangeAndTwoAreUnread :
    otherParameters.txCap = (queued [.accept]).config.txCap ∧
    otherParameters.rxCap = (queued [.accept]).config.rxCap ∧
    otherParameters.chunkSize = (queued [.accept]).config.chunkSize ∧
    otherParameters.rxClearOnDispatch = (queued [.accept]).config.rxClearOnDispatch ∧
    otherParameters.retryMax ≠ (queued [.accept]).config.retryMax ∧
    ∃ t, exec .pump (queued [.accept]) = .next t :=
  ⟨by decide, by decide, by decide, by decide, by decide, _, rfl⟩

end Sys2Proof.Machine.Tests
end

section
/-! PROOFS. What a step does around its command, and which parameters a command reads (00_scope.md R7, R14). -/

namespace Sys2Proof.Machine

/-! ## The step around the command -/

/-- Settles O6: the step hands the port's oldest command to `execCmd`, which decodes it. -/
theorem stepRunsTheDecodedCommand : Obligations.StepRunsTheDecodedCommand := by
  refine ⟨fun s c rest i hport hdec => ?_, fun s c rest why hport hdec => ?_⟩
  · rw [step_cons hport, execCmd_instr hdec]; rfl
  · rw [step_cons hport, execCmd_illegal hdec, execIllegal_eq]; rfl

/-! ## Two configurations that no command tells apart -/

/-- Every mask of `Config.ackMasks` is one bit other than bit 0: the converse of `Config.bit_mem_ackMasks`. -/
theorem exists_bit_of_mem_ackMasks : ∀ m ∈ Config.ackMasks, ∃ k : Fin 7, m = 1#8 <<< (k.val + 1) := by decide

/-- c agrees with d in every parameter but RETRY_MAX and REQUIRES_ACK_MASK. -/
structure ReadsAlike (c d : Config) : Prop where
  txCap : c.txCap = d.txCap
  rxCap : c.rxCap = d.rxCap
  chunkSize : c.chunkSize = d.chunkSize
  rxClearOnDispatch : c.rxClearOnDispatch = d.rxClearOnDispatch

/-- s in another configuration. -/
def State.withConfig (s : State) (c : Config) : State := { s with config := c }

/-- The same outcome, with its next state in another configuration. -/
def outWithConfig (c : Config) : Out → Out
  | .next t => .next (t.withConfig c)
  | .fault f => .fault f
  | .refused r => .refused r

variable {s : State} {c : Config}

@[simp] theorem State.withConfig_config : (s.withConfig c).config = c := rfl
@[simp] theorem State.withConfig_txb : (s.withConfig c).txb = s.txb := rfl
@[simp] theorem State.withConfig_txLen : (s.withConfig c).txLen = s.txLen := rfl
@[simp] theorem State.withConfig_txSent : (s.withConfig c).txSent = s.txSent := rfl
@[simp] theorem State.withConfig_pending : (s.withConfig c).pending = s.pending := rfl
@[simp] theorem State.withConfig_rxb : (s.withConfig c).rxb = s.rxb := rfl
@[simp] theorem State.withConfig_rxLen : (s.withConfig c).rxLen = s.rxLen := rfl
@[simp] theorem State.withConfig_connected : (s.withConfig c).connected = s.connected := rfl
@[simp] theorem State.withConfig_resp : (s.withConfig c).resp = s.resp := rfl
@[simp] theorem State.withConfig_drawn : (s.withConfig c).drawn = s.drawn.withConfig c := rfl

@[simp] theorem outWithConfig_next (t : State) : outWithConfig c (.next t) = .next (t.withConfig c) := rfl

/-- A faulting operation that does not read the configuration leaves the change of configuration to what follows. -/
theorem orFault_outWithConfig {α : Type} {r : Except Fault α} {k k' : α → Out}
    (h : ∀ a, k' a = outWithConfig c (k a)) : orFault r k' = outWithConfig c (orFault r k) := by
  cases r with
  | ok a => exact h a
  | error f => rfl

theorem execEscape_withConfig (cap : Byte) (d : List Byte) :
    execEscape cap d (s.withConfig c) = outWithConfig c (execEscape cap d s) := by
  unfold execEscape
  split <;> rfl

/-- QUEUE reads TX_CAP alone. -/
theorem execQueue_withConfig (h : c.txCap = s.config.txCap) (ident : Ident) (flags : Byte) (d : List Byte) :
    execQueue ident flags d (s.withConfig c) = outWithConfig c (execQueue ident flags d s) := by
  unfold execQueue
  simp only [State.withConfig_config, State.withConfig_pending, State.withConfig_connected,
    State.withConfig_txb, h]
  split
  · rfl
  · split
    · rfl
    · split
      · rfl
      · exact orFault_outWithConfig fun _ => rfl

theorem chunkLen_withConfig (h : c.chunkSize = s.config.chunkSize) : chunkLen (s.withConfig c) = chunkLen s := by
  simp [chunkLen, h]

theorem offerChunk_withConfig (r : Resp) (chunk : List Byte) :
    offerChunk r chunk (s.withConfig c) =
      ((offerChunk r chunk s).1.withConfig c, (offerChunk r chunk s).2) := by
  cases r <;> rfl

/-- PUMP reads TX_CAP and CHUNK_SIZE alone. -/
theorem execPump_withConfig (h : c.txCap = s.config.txCap) (hn : c.chunkSize = s.config.chunkSize) :
    execPump (s.withConfig c) = outWithConfig c (execPump s) := by
  unfold execPump
  simp only [chunkLen_withConfig hn, offerChunk_withConfig, State.withConfig_config, State.withConfig_pending,
    State.withConfig_txb, State.withConfig_txSent, State.withConfig_resp, State.withConfig_drawn, h]
  split
  · exact orFault_outWithConfig fun _ => orFault_outWithConfig fun _ => rfl
  · rfl

/-- A complete frame reads RX_CLEAR_ON_DISPATCH alone. -/
theorem frameComplete_withConfig (h : c.rxClearOnDispatch = s.config.rxClearOnDispatch) (u : List Byte) (n : Nat) :
    frameComplete u n (s.withConfig c) = outWithConfig c (frameComplete u n s) := by
  by_cases hu : u.length < 4
  · simp only [frameComplete, if_pos hu]; rfl
  · obtain ⟨lo, hi, flags, payload, rcv, rfl⟩ := exists_fields (Nat.le_of_not_lt hu)
    rw [frameComplete_fields, frameComplete_fields, State.withConfig_config, h]
    split <;> rfl

theorem afterStore_withConfig (h : ReadsAlike c s.config) (n : Nat) :
    afterStore n (s.withConfig c) = outWithConfig c (afterStore n s) := by
  unfold afterStore
  simp only [State.withConfig_config, State.withConfig_rxb, h.rxCap]
  split
  · rfl
  · refine orFault_outWithConfig fun last => ?_
    split
    · rfl
    · exact orFault_outWithConfig fun span => frameComplete_withConfig h.rxClearOnDispatch (unesc span) n

/-- INGEST reads RX_CAP and RX_CLEAR_ON_DISPATCH alone. -/
theorem execIngest_withConfig (h : ReadsAlike c s.config) (fragment : List Byte) :
    execIngest fragment (s.withConfig c) = outWithConfig c (execIngest fragment s) := by
  unfold execIngest
  simp only [State.withConfig_config, State.withConfig_rxb, State.withConfig_rxLen, h.rxCap]
  refine orFault_outWithConfig fun first => ?_
  cases classify first s.rxLen with
  | leading | continuation =>
    dsimp only
    split
    · rfl
    · exact orFault_outWithConfig fun rxb => afterStore_withConfig (s := s.withRxb rxb) h _
  | stray => rfl

/-- No command reads RETRY_MAX or REQUIRES_ACK_MASK, whatever its outcome. -/
theorem exec_withConfig (h : ReadsAlike c s.config) (i : Instr) :
    exec i (s.withConfig c) = outWithConfig c (exec i s) := by
  cases i with
  | crc8 | unescape | connect | disconnect | readStatus => rfl
  | escape cap d => exact execEscape_withConfig cap d
  | queue ident flags d => exact execQueue_withConfig h.txCap ident flags d
  | pump => exact execPump_withConfig h.txCap h.chunkSize
  | ingest fragment => exact execIngest_withConfig h fragment

/-- The ranges of 00_scope.md R7, from the proofs that a configuration carries. -/
theorem config_ranges (c : Config) :
    6 ≤ c.txCap ∧ c.txCap ≤ 255 ∧ 2 ≤ c.rxCap ∧ c.rxCap ≤ 255 ∧
    1 ≤ c.chunkSize ∧ c.chunkSize ≤ 255 ∧ 1 ≤ c.retryMax ∧
    ∃ k, 1 ≤ k ∧ k < 8 ∧ c.requiresAckMask = 1#8 <<< k := by
  obtain ⟨k, hk⟩ := exists_bit_of_mem_ackMasks _ c.requiresAckMask_range
  exact ⟨c.txCap_range.1, c.txCap_range.2, c.rxCap_range.1, c.rxCap_range.2, c.chunkSize_range.1,
    c.chunkSize_range.2, c.retryMax_range, k + 1, by omega, by omega, hk⟩

/-- Settles O60: the ranges are the proofs a configuration carries, and `exec` commutes with a change of the two
unread parameters. -/
theorem parametersAreInRangeAndTwoAreUnread : Obligations.ParametersAreInRangeAndTwoAreUnread := by
  refine ⟨config_ranges, ⟨rfl, rfl, rfl, rfl, rfl, rfl⟩, fun i s t c htx hrx hchunk hclear hexec => ?_⟩
  have hcomm := exec_withConfig (s := s) ⟨htx, hrx, hchunk, hclear⟩ i
  rw [hexec] at hcomm
  exact hcomm

end Sys2Proof.Machine
end

section
/-! PROOFS. The state's rules that hold command by command: STATUS, reset, and which command writes which field
(10_state.md R21, R25, R27; 70_reset_and_hazards.md R260). -/

namespace Sys2Proof.Machine

variable {s t : State}

/-! ## STATUS and reset -/

theorem bit8_getLsbD (b : Bool) (k : Nat) : (bit8 b).getLsbD k = (decide (k = 0) && b) := by
  cases b <;> simp [bit8]

/-- STATUS, one bit at a time: a shifted bit stands at the place it is shifted to. -/
theorem State.status_getLsbD (s : State) (k : Nat) :
    s.status.getLsbD k =
      (decide (k = 0) && s.pending || decide (k = 1) && s.connected || decide (k = 2) && s.rxActive) := by
  simp only [State.status, BitVec.getLsbD_or, BitVec.getLsbD_shiftLeft, bit8_getLsbD]
  rcases k with _ | _ | _ | k <;> simp

theorem State.resetWith_status (c : Config) : (State.resetWith c).status = 0#8 := by
  simp [State.status, State.rxActive, bit8]

/-- Settles O51: `State.status_getLsbD` at each bit. -/
theorem statusFields : Obligations.StatusFields := by
  refine ⟨State.resetWith_status, fun s => ⟨?_, ?_, ?_, fun k hk => ?_⟩⟩ <;> rw [State.status_getLsbD]
  · simp
  · simp
  · simp [State.rxActive, bne, beq_eq_decide]
  · simp [show k ≠ 0 by omega, show k ≠ 1 by omega, show k ≠ 2 by omega]

/-- Settles O8: every clause is a field of `State.resetWith`, and READ_STATUS reads those fields and STATUS. -/
theorem resetLeavesTheSpecsValues : Obligations.ResetLeavesTheSpecsValues := by
  refine fun c => ⟨rfl, rfl, rfl, rfl, rfl, rfl, rfl, State.resetWith_status c, ?_⟩
  simp only [exec, execReadStatus, State.resetWith_status]
  rfl

/-! ## Who writes what -/

/-- The receive engine's writes: rx_len, the results and the trace of s, RXB as it stands in s. -/
def State.Received (s t : State) : Prop :=
  t = { s with rxLen := t.rxLen, results := t.results, trace := t.trace }

theorem frameComplete_received {u : List Byte} {n : Nat} (h : frameComplete u n s = .next t) : s.Received t := by
  obtain ⟨-, e⟩ | ⟨_, _, -, -, -, e⟩ | ⟨_, _, _, _, -, e⟩ := frameComplete_cases u n s <;>
    (rw [e] at h; cases h; rfl)

theorem afterStore_received {n : Nat} (h : afterStore n s = .next t) : s.Received t := by
  obtain ⟨-, rfl⟩ | ⟨-, -, _, -, -, rfl⟩ | ⟨-, -, -, _, -, -, h⟩ := afterStore_cases h
  · rfl
  · rfl
  · exact frameComplete_received h

/-- Where INGEST stores a fragment that fits: a leading one at offset 0, a continuation at rx_len; a stray one nowhere
(43_receive.md R182 to R185). -/
abbrev State.StoresAt (s : State) (fragment : List Byte) (base : Nat) : Prop :=
  fragment.head? = some delim ∧ base = 0 ∨
    fragment.head? ≠ some delim ∧ 0 < s.rxLen.toNat ∧ base = s.rxLen.toNat

/-- INGEST's frame: what it can write beside the results and the trace is rx_len and, from where the fragment is
stored, RXB. -/
theorem execIngest_received {fragment : List Byte} (h : execIngest fragment s = .next t) :
    s.Received t ∨ ∃ base, s.StoresAt fragment base ∧
      (s.withRxb (s.rxb.write base fragment)).Received t := by
  obtain ⟨-, ⟨-, -, rfl⟩ | ⟨-, rfl⟩ | ⟨base, hbase, -, h⟩⟩ := execIngest_cases h
  · exact .inl rfl
  · exact .inl rfl
  · exact .inr ⟨base, hbase, afterStore_received h⟩

/-- Settles O43: a fragment that is not stored leaves RXB, and one that is stored changes what `Memory.get?_write` says. -/
theorem ingestTouchesOnlyTheReceiver : Obligations.IngestTouchesOnlyTheReceiver := by
  intro fragment s t h
  obtain hr | ⟨base, hbase, hr⟩ := execIngest_received h
  · rw [hr]
    exact ⟨rfl, rfl, rfl, rfl, rfl, rfl, rfl, rfl, rfl, fun _ _ _ => rfl, fun _ _ _ => rfl, fun _ _ => rfl⟩
  · rw [hr]
    refine ⟨rfl, rfl, rfl, rfl, rfl, rfl, rfl, rfl, rfl, fun hlead a ha => ?_, fun hcont a ha => ?_,
      fun hcont hzero => ?_⟩
    · obtain ⟨-, rfl⟩ | ⟨hne, -⟩ := hbase
      · exact (Memory.get?_write ..).trans (if_neg (by omega))
      · exact absurd hlead hne
    · obtain ⟨hlead, -⟩ | ⟨-, -, rfl⟩ := hbase
      · exact absurd hlead hcont
      · exact (Memory.get?_write ..).trans (if_neg (by omega))
    · obtain ⟨hlead, -⟩ | ⟨-, hpos, -⟩ := hbase
      · exact absurd hlead hcont
      · simp [hzero] at hpos

/-- ESCAPE writes nothing but its result. -/
theorem execEscape_writes_result {cap : Byte} {d : List Byte} (h : execEscape cap d s = .next t) :
    t = { s with results := t.results } := by
  obtain ⟨r, e, -⟩ := execEscape_eq cap d s
  rw [e] at h; cases h; rfl

/-- QUEUE writes nothing but the transmit state and its result. -/
theorem execQueue_writes_transmit {ident : Ident} {flags : Byte} {d : List Byte}
    (h : execQueue ident flags d s = .next t) :
    t = { s with txb := t.txb, txLen := t.txLen, txSent := t.txSent, pending := t.pending, results := t.results } := by
  obtain ⟨-, rfl⟩ | ⟨-, -, rfl⟩ | ⟨-, -, -, rfl⟩ | ⟨-, -, _, -, -, rfl⟩ := execQueue_cases h <;> rfl

/-- PUMP writes nothing but tx_sent, pending, the draw it takes, its result and the trace. -/
theorem execPump_writes_transmit (h : execPump s = .next t) :
    t = { s with txSent := t.txSent, pending := t.pending, answers := t.answers, draws := t.draws,
                 results := t.results, trace := t.trace } := by
  obtain ⟨-, rfl⟩ | ⟨-, _, _, -, -, -, -, -, ⟨-, rfl⟩ | ⟨-, rfl⟩⟩ := execPump_cases h <;> rfl

/-- Settles O53: command by command, from what each can write. -/
theorem ownershipOfTheState : Obligations.OwnershipOfTheState := by
  intro i s t h
  cases i with
  | crc8 | unescape | connect | disconnect | readStatus => cases h; simp [State.complete, State.linkUp, State.linkDown]
  | escape cap d => rw [execEscape_writes_result h]; simp
  | queue ident flags d => rw [execQueue_writes_transmit h]; simp
  | pump => rw [execPump_writes_transmit h]; simp
  | ingest fragment =>
    obtain ⟨hconfig, htxb, htxLen, htxSent, hpending, hconnected, hport, -⟩ :=
      ingestTouchesOnlyTheReceiver fragment s t h
    simp [hconfig, htxb, htxLen, htxSent, hpending, hconnected, hport]

end Sys2Proof.Machine
end

section
/-! PROOFS. The invariant (10_state.md R28 to R30): it holds at reset, every step keeps it, and in a state that meets it
every step answers a next state; so it holds along every run. -/

namespace Sys2Proof.Machine

variable {s t : State}

/-! ## Lengths and frames -/

/-- A frame begins and ends with DELIM (42_transmit.md R154). -/
theorem frameOf_delims (ident : Ident) (flags : Byte) (e : List Byte) :
    (frameOf ident flags e)[0]? = some delim ∧ (frameOf ident flags e)[e.length + 5]? = some delim := by
  refine ⟨rfl, ?_⟩
  have hsplit : frameOf ident flags e =
      ([delim] ++ frameBody ident flags e ++ [crc8 (frameBody ident flags e)]) ++ [delim] := by
    simp [frameOf]
  rw [hsplit, List.getElem?_append_right (by simp [frameBody])]
  simp [frameBody]

/-- R122's loop never writes past the capacity. -/
theorem escCapFrom_length_le {cap : Nat} {out l e : List Byte} (h : escCapFrom cap out l = .ok e)
    (hout : out.length ≤ cap) : e.length ≤ cap := by
  induction l generalizing out with
  | nil => cases h; exact hout
  | cons b l ih =>
    rw [escCapFrom] at h
    split at h
    · cases h
    · exact ih h (by rw [List.length_append]; omega)

theorem escCap_length_le {cap : Nat} {l e : List Byte} (h : escCap l cap = .ok e) : e.length ≤ cap :=
  escCapFrom_length_le h (Nat.zero_le cap)

/-! ## The invariant and the named updates -/

theorem State.Inv.complete (h : s.Inv) (code : ResultCode) (value : Byte) (data : List Byte) :
    (s.complete code value data).Inv := { h with }

theorem State.Inv.emit (h : s.Inv) (e : Event) : (s.emit e).Inv := { h with }

theorem State.Inv.drawn (h : s.Inv) : s.drawn.Inv := { h with }

theorem State.Inv.withPort (h : s.Inv) (rest : List Cmd) : (s.withPort rest).Inv := { h with }

theorem State.Inv.linkUp (h : s.Inv) : s.linkUp.Inv := { h with pending_connected := fun _ => rfl }

/-- An empty receiver and a frame dropped leave nothing that the conditional clauses speak of. -/
theorem State.Inv.linkDown (h : s.Inv) : s.linkDown.Inv :=
  { h with
    pending_connected := nofun
    pending_len := nofun
    pending_sent := nofun
    pending_written := nofun
    pending_delims := nofun
    rxLen_le := Nat.zero_le _
    rxb_written := nofun
    rx_leading := nofun
    rx_incomplete := nofun }

/-- QUEUE's commit makes the frame pending, whole and unsent. -/
theorem State.Inv.commitFrame (h : s.Inv) (hc : s.connected = true) (ident : Ident) (flags : Byte) {e : List Byte}
    (hfit : e.length + 6 ≤ s.config.txCap) :
    (s.commitFrame (s.txb.write 0 (frameOf ident flags e)) (e.length + 6)).Inv := by
  have hlen : (len8 (e.length + 6)).toNat = e.length + 6 :=
    len8_toNat (Nat.le_trans hfit s.config.txCap_range.2)
  have hread : ∀ a < e.length + 6,
      (s.txb.write 0 (frameOf ident flags e)).get? a = (frameOf ident flags e)[a]? := fun a ha => by
    rw [Memory.get?_write, frameOf_length, if_pos (by omega), Nat.sub_zero]
  obtain ⟨hfirst, hlast⟩ := frameOf_delims ident flags e
  exact
    { h with
      txb_wf := Memory.wf_write h.txb_wf ..
      txb_within := Memory.within_write h.txb_within (by rw [frameOf_length]; omega)
      txLen_le := hlen.trans_le hfit
      txSent_le := Nat.zero_le _
      pending_connected := fun _ => hc
      pending_len := fun _ => by simp [hlen]
      pending_sent := fun _ => by simp [hlen]
      pending_written := fun _ a ha => by
        simp only [State.commitFrame_txb, State.commitFrame_txLen, hlen] at ha ⊢
        rw [hread a ha, List.getElem?_eq_getElem (by rw [frameOf_length]; exact ha)]
        rfl
      pending_delims := fun _ => by
        simp only [State.commitFrame_txb, State.commitFrame_txLen, hlen]
        exact ⟨(hread 0 (by omega)).trans hfirst, (hread _ (by omega)).trans hlast⟩ }

/-- PUMP's advance: pending clears exactly when nothing is left to read out. -/
theorem State.Inv.advance (h : s.Inv) {n : Nat} (hn : n ≤ s.txLen.toNat) : (s.advance n).Inv := by
  have hsent : (len8 n).toNat = n := len8_toNat (Nat.le_trans hn (Nat.le_of_lt_succ s.txLen.isLt))
  have hpending : (s.advance n).pending = true → n ≠ s.txLen.toNat ∧ s.pending = true := by simp
  exact
    { h with
      txSent_le := hsent.trans_le hn
      pending_connected := fun hp => h.pending_connected (hpending hp).2
      pending_len := fun hp => h.pending_len (hpending hp).2
      pending_sent := fun hp => hsent.trans_lt (Nat.lt_of_le_of_ne hn (hpending hp).1)
      pending_written := fun hp => h.pending_written (hpending hp).2
      pending_delims := fun hp => h.pending_delims (hpending hp).2 }

/-- The receiver back in Empty: nothing is held, so nothing is asked of RXB but its form and size. -/
theorem State.Inv.rxEmptied (h : s.Inv) {m : Memory} (hwf : m.wf = true) (hwithin : m.Within s.config.rxCap) :
    ((s.withRxb m).withRxLen 0).Inv :=
  { h with
    rxb_wf := hwf
    rxb_within := hwithin
    rxLen_le := Nat.zero_le _
    rxb_written := nofun
    rx_leading := nofun
    rx_incomplete := nofun }

/-- The receiver holding n bytes of RXB, the last of which does not complete a frame where a completed frame would have
been cleared. -/
theorem State.Inv.rxHolds (h : s.Inv) {m : Memory} {n : Nat} (hwf : m.wf = true) (hwithin : m.Within s.config.rxCap)
    (hn : n ≤ s.config.rxCap) (hwritten : m.Written n) (hlead : m.get? 0 = some delim)
    (hlast : s.config.rxClearOnDispatch = true → 2 ≤ n → m.get? (n - 1) ≠ some delim) :
    ((s.withRxb m).withRxLen n).Inv := by
  have hlen : (len8 n).toNat = n := len8_toNat (Nat.le_trans hn s.config.rxCap_range.2)
  exact
    { h with
      rxb_wf := hwf
      rxb_within := hwithin
      rxLen_le := hlen.trans_le hn
      rxb_written := by simpa [hlen] using hwritten
      rx_leading := fun _ => hlead
      rx_incomplete := by simpa [hlen] using hlast }

/-! ## Every step keeps the invariant -/

/-- QUEUE commits a frame or only answers. -/
theorem execQueue_keeps_inv {ident : Ident} {flags : Byte} {d : List Byte} (hs : s.Inv)
    (h : execQueue ident flags d s = .next t) : t.Inv := by
  obtain ⟨-, rfl⟩ | ⟨-, -, rfl⟩ | ⟨-, -, -, rfl⟩ | ⟨-, hc, e, -, hfit, rfl⟩ := execQueue_cases h
  · exact hs.complete ..
  · exact hs.complete ..
  · exact hs.complete ..
  · exact (hs.commitFrame hc ident flags hfit).complete ..

/-- PUMP reads out no more than is left of the frame. -/
theorem execPump_keeps_inv (hs : s.Inv) (h : execPump s = .next t) : t.Inv := by
  obtain ⟨-, rfl⟩ | ⟨-, n, chunk, hle, hn, -, -, -, hanswer⟩ := execPump_cases h
  · exact hs.complete ..
  · have hsum : s.txSent.toNat + n ≤ s.txLen.toNat := by omega
    obtain ⟨-, rfl⟩ | ⟨-, rfl⟩ := hanswer
    · exact ((hs.drawn.emit _).advance hsum).complete ..
    · exact (hs.drawn.advance hsum).complete ..

/-- With m stored in RXB and n of its bytes held, whatever the completion test answers keeps the invariant: a frame that
stays in the receiver is incomplete, or RX_CLEAR_ON_DISPATCH is off. -/
theorem afterStore_keeps_inv {m : Memory} {n : Nat} (hs : s.Inv) (hwf : m.wf = true)
    (hwithin : m.Within s.config.rxCap) (hn : n ≤ s.config.rxCap) (hwritten : m.Written n)
    (hlead : m.get? 0 = some delim) (h : afterStore n (s.withRxb m) = .next t) : t.Inv := by
  have hempty := hs.rxEmptied hwf hwithin
  have hholds := hs.rxHolds hwf hwithin hn hwritten hlead
  obtain ⟨hshort, rfl⟩ | ⟨-, -, b, hb, hne, rfl⟩ | ⟨-, -, -, span, -, -, hframe⟩ := afterStore_cases h
  · exact (hholds fun _ h2 => by omega).complete ..
  · exact (hholds fun _ _ => by rw [show m.get? (n - 1) = some b from hb]; simpa using hne).complete ..
  · obtain ⟨-, e⟩ | ⟨_, _, -, -, -, e⟩ | ⟨lo, hi, flags, payload, -, e⟩ :=
      frameComplete_cases (unesc span) n (s.withRxb m) <;> (rw [e] at hframe; cases hframe)
    · exact hempty.complete ..
    · exact (hempty.emit _).complete ..
    · by_cases hclear : s.config.rxClearOnDispatch = true
      · rw [State.withRxb_config, if_pos hclear]
        exact (hempty.emit _).complete ..
      · rw [State.withRxb_config, if_neg hclear]
        exact ((hholds fun hc => absurd hc hclear).emit _).complete ..

/-- RXB after a store at offset 0 or at rx_len: every byte below the new length is written, and the first is DELIM. -/
theorem stored_written_and_led {fragment : List Byte} {base : Nat} (hs : s.Inv) (hne : fragment ≠ [])
    (hbase : s.StoresAt fragment base) :
    (s.rxb.write base fragment).Written (base + fragment.length) ∧
      (s.rxb.write base fragment).get? 0 = some delim := by
  have hpos := List.length_pos_iff.mpr hne
  constructor
  · intro a ha
    rw [Memory.get?_write]
    split
    · rw [List.getElem?_eq_getElem (by omega)]; rfl
    · exact hs.rxb_written a (by omega)
  · rw [Memory.get?_write]
    obtain ⟨hlead, rfl⟩ | ⟨-, hheld, rfl⟩ := hbase
    · rw [if_pos (by omega), ← hlead, List.head?_eq_getElem?]
    · rw [if_neg (by omega)]
      exact hs.rx_leading hheld

theorem execIngest_keeps_inv {fragment : List Byte} (hs : s.Inv) (h : execIngest fragment s = .next t) : t.Inv := by
  obtain ⟨hne, ⟨-, -, rfl⟩ | ⟨-, rfl⟩ | ⟨base, hbase, hfit, hstore⟩⟩ := execIngest_cases h
  · exact hs.complete ..
  · exact (hs.rxEmptied hs.rxb_wf hs.rxb_within).complete ..
  · obtain ⟨hwritten, hlead⟩ := stored_written_and_led hs hne hbase
    exact afterStore_keeps_inv hs (Memory.wf_write hs.rxb_wf ..) (Memory.within_write hs.rxb_within hfit) hfit
      hwritten hlead hstore

theorem exec_keeps_inv {i : Instr} (hs : s.Inv) (h : exec i s = .next t) : t.Inv := by
  cases i with
  | crc8 | unescape | readStatus => cases h; exact hs.complete ..
  | escape cap d =>
    obtain ⟨r, e, -⟩ := execEscape_eq cap d s
    cases e.symm.trans h
    exact hs.complete ..
  | queue ident flags d => exact execQueue_keeps_inv hs h
  | pump => exact execPump_keeps_inv hs h
  | ingest fragment => exact execIngest_keeps_inv hs h
  | connect => cases h; exact hs.linkUp.complete ..
  | disconnect => cases h; exact hs.linkDown.complete ..

/-- What `exec` and the ILLEGAL result keep, a step keeps: it does nothing else but take the command off the port. -/
theorem step_induction {P : State → Prop} (hport : ∀ s rest, P s → P (s.withPort rest))
    (hexec : ∀ i s t, P s → exec i s = .next t → P t)
    (hillegal : ∀ s, P s → P (s.complete .illegal 0#8 [])) (hs : P s) (h : step s = .next t) : P t := by
  cases hp : s.port with
  | nil => rw [step_nil hp] at h; cases h; exact hs
  | cons c rest =>
    rw [step_cons hp] at h
    cases hd : c.decode with
    | instr i => rw [execCmd_instr hd] at h; exact hexec i _ _ (hport s rest hs) h
    | illegal why => rw [execCmd_illegal hd] at h; cases h; exact hillegal _ (hport s rest hs)

/-- Settles O10: each command keeps the invariant, and so do the port and the ILLEGAL result. -/
theorem everyStepKeepsTheInvariant : Obligations.EveryStepKeepsTheInvariant :=
  fun _ _ hs h => step_induction (P := State.Inv) (fun _ rest hs => hs.withPort rest)
    (fun _ _ _ hs h => exec_keeps_inv hs h) (fun _ hs => hs.complete ..) hs h

/-! ## The invariant along a run -/

/-- Nothing pending, nothing held and nothing written: the memories are in form and no clause asks for a byte. -/
theorem start_inv (c : Config) (cmds : List Cmd) (answers : List Resp) : (State.start c cmds answers).Inv where
  txb_wf := rfl
  rxb_wf := rfl
  txb_within := nofun
  rxb_within := nofun
  txLen_le := Nat.zero_le _
  txSent_le := Nat.zero_le _
  pending_connected := nofun
  pending_len := nofun
  pending_sent := nofun
  pending_written := nofun
  pending_delims := nofun
  rxLen_le := Nat.zero_le _
  rxb_written := nofun
  rx_leading := nofun
  rx_incomplete := nofun

/-- Settles O9: the reference reset is the start of the reference configuration's run with nothing in store. -/
theorem resetMeetsTheInvariant : Obligations.ResetMeetsTheInvariant :=
  ⟨start_inv Config.reference [] [], start_inv⟩

/-- What every step keeps holds of every state that a run reaches. -/
theorem run_induction {P : State → Prop} (hstep : ∀ s t, P s → step s = .next t → P t) {n : Nat} (hs : P s)
    (h : Sys2Proof.core.run n s = .next t) : P t := by
  induction n generalizing s with
  | zero => cases h; exact hs
  | succ n ih =>
    obtain ⟨r, hr, h⟩ := run_succ_eq_next h
    exact ih (hstep s r hs hr) h

theorem step_config (h : step s = .next t) : t.config = s.config :=
  step_induction (P := fun r => r.config = s.config) (fun _ _ hr => hr)
    (fun i r u hr h => (ownershipOfTheState i r u h).1.trans hr) (fun _ hr => hr) rfl h

/-- Every state of every run meets the invariant, in the run's configuration. -/
theorem runOf_inv {c : Config} {cmds : List Cmd} {answers : List Resp} {n : Nat}
    (h : runOf c cmds answers n = .next t) : t.Inv ∧ t.config = c :=
  run_induction (P := fun r => r.Inv ∧ r.config = c)
    (fun r u hr hu => ⟨everyStepKeepsTheInvariant r u hr.1 hu, (step_config hu).trans hr.2⟩)
    ⟨start_inv c cmds answers, rfl⟩ h

/-- Settles O13: the transmit clauses of the invariant, in every state of a run. -/
theorem transmitInvariants : Obligations.TransmitInvariants := by
  intro c cmds answers n t h hp
  obtain ⟨hinv, rfl⟩ := runOf_inv h
  exact ⟨hinv.pending_connected hp, hinv.pending_len hp, hinv.txLen_le, hinv.pending_sent hp, hinv.pending_delims hp⟩

/-- Settles O14: the receive clauses of the invariant, in every state of a run. -/
theorem receiveInvariants : Obligations.ReceiveInvariants := by
  intro c cmds answers n t h
  obtain ⟨hinv, rfl⟩ := runOf_inv h
  exact ⟨hinv.rxLen_le, hinv.rx_leading, hinv.rx_incomplete⟩

end Sys2Proof.Machine
end

section
/-! PROOFS. Two states that agree in what commands read (`State.Agrees`) go on agreeing, and neither stops
(10_state.md R28, 60_exceptions.md R232, 92_eei_decisions.md D38). -/

namespace Sys2Proof.Machine

variable {s s' : State}

/-! ## Agreement and the named updates -/

theorem State.Agrees.refl (s : State) : s.Agrees s where
  config := rfl
  pending := rfl
  connected := rfl
  rxLen := rfl
  rxb _ _ := rfl
  txLen _ := rfl
  txSent _ := rfl
  txb _ _ _ := rfl
  port := rfl
  answers := rfl
  draws := rfl
  results := rfl
  trace := rfl

theorem State.Agrees.complete (h : s.Agrees s') (code : ResultCode) (value : Byte) (data : List Byte) :
    (s.complete code value data).Agrees (s'.complete code value data) :=
  { h with results := by simp [h.results] }

theorem State.Agrees.emit (h : s.Agrees s') (e : Event) : (s.emit e).Agrees (s'.emit e) :=
  { h with trace := by simp [h.trace] }

theorem State.Agrees.drawn (h : s.Agrees s') : s.drawn.Agrees s'.drawn :=
  { h with
    answers := congrArg List.tail h.answers
    draws := congrArg (· + 1) h.draws }

theorem State.Agrees.linkUp (h : s.Agrees s') : s.linkUp.Agrees s'.linkUp := { h with connected := rfl }

theorem State.Agrees.linkDown (h : s.Agrees s') : s.linkDown.Agrees s'.linkDown :=
  { h with
    connected := rfl
    pending := rfl
    rxLen := rfl
    rxb := nofun
    txLen := nofun
    txSent := nofun
    txb := nofun }

theorem len8_toNat_le (n : Nat) : (len8 n).toNat ≤ n := Nat.mod_le n _

/-- Two memories that agree below n outside the range of a store agree below n after it. -/
theorem Memory.get?_write_congr {m m' : Memory} {a n : Nat} {l : List Byte}
    (h : ∀ k < n, k < a ∨ a + l.length ≤ k → m.get? k = m'.get? k) :
    ∀ k < n, (m.write a l).get? k = (m'.write a l).get? k := by
  intro k hk
  rw [Memory.get?_write, Memory.get?_write]
  split
  · rfl
  · exact h k hk (by omega)

/-- A committed frame is the whole of what is read of TXB while it is pending. -/
theorem State.Agrees.commitFrame (h : s.Agrees s') (frame : List Byte) :
    (s.commitFrame (s.txb.write 0 frame) frame.length).Agrees
      (s'.commitFrame (s'.txb.write 0 frame) frame.length) :=
  { h with
    pending := rfl
    txLen := fun _ => rfl
    txSent := fun _ => rfl
    txb := fun _ a ha => Memory.get?_write_congr (n := frame.length) (fun k hk hout => by omega) a
      (Nat.lt_of_lt_of_le ha (len8_toNat_le _)) }

theorem State.Agrees.advance (h : s.Agrees s') (hp : s.pending = true) (n : Nat) :
    (s.advance n).Agrees (s'.advance n) :=
  { h with
    pending := by simp [h.pending, h.txLen hp]
    txLen := fun _ => h.txLen hp
    txSent := fun _ => rfl
    txb := fun _ => h.txb hp }

theorem State.Agrees.withRxLen (h : s.Agrees s') {n : Nat} (hb : ∀ a < n, s.rxb.get? a = s'.rxb.get? a) :
    (s.withRxLen n).Agrees (s'.withRxLen n) :=
  { h with
    rxLen := rfl
    rxb := fun a ha => hb a (Nat.lt_of_lt_of_le ha (len8_toNat_le n)) }

theorem State.Agrees.store (h : s.Agrees s') (base : Nat) (fragment : List Byte) :
    (s.withRxb (s.rxb.write base fragment)).Agrees (s'.withRxb (s'.rxb.write base fragment)) :=
  { h with rxb := Memory.get?_write_congr fun k hk _ => h.rxb k hk }

/-- A store at offset 0 or at rx_len leaves the two RXBs alike in everything then held. -/
theorem State.Agrees.stored_alike (h : s.Agrees s') {fragment : List Byte} {base : Nat}
    (hbase : s.StoresAt fragment base) :
    ∀ a < base + fragment.length, (s.rxb.write base fragment).get? a = (s'.rxb.write base fragment).get? a := by
  refine Memory.get?_write_congr fun k hk hout => h.rxb k ?_
  obtain ⟨-, rfl⟩ | ⟨-, -, rfl⟩ := hbase <;> omega

theorem State.Agrees.storesAt (h : s.Agrees s') {fragment : List Byte} {base : Nat}
    (hbase : s.StoresAt fragment base) : s'.StoresAt fragment base := by
  simpa only [State.StoresAt, h.rxLen] using hbase

theorem State.Agrees.resp (h : s.Agrees s') : s.resp = s'.resp := by
  simp [State.resp, h.answers, h.draws]

/-! ## INGEST where nothing is stored -/

theorem execIngest_stray {fragment : List Byte} (hne : fragment ≠ []) (hhead : fragment.head? ≠ some delim)
    (hzero : s.rxLen.toNat = 0) : execIngest fragment s = .next (s.complete .discarded 0#8 []) := by
  cases fragment with
  | nil => exact absurd rfl hne
  | cons b l => simp [execIngest, classify_stray (show b ≠ delim by simpa using hhead) hzero]

theorem execIngest_overflow {fragment : List Byte} {base : Nat} (hne : fragment ≠ [])
    (hbase : s.StoresAt fragment base) (hover : s.config.rxCap < base + fragment.length) :
    execIngest fragment s = .next ((s.withRxLen 0).complete .rxOverflow 0#8 []) := by
  cases fragment with
  | nil => exact absurd rfl hne
  | cons b l =>
    simp only [State.StoresAt, List.head?_cons, ne_eq, Option.some.injEq] at hbase
    unfold execIngest
    rw [seqAt_cons_zero, orFault_ok]
    obtain ⟨rfl, rfl⟩ | ⟨hb, hn, rfl⟩ := hbase
    · rw [classify_delim]
      exact if_pos (by omega)
    · rw [classify_continuation hb hn]
      exact if_pos hover

/-- A fragment is stray, or it has a place in RXB. -/
theorem stray_or_storesAt (s : State) (fragment : List Byte) :
    (fragment.head? ≠ some delim ∧ s.rxLen.toNat = 0) ∨ ∃ base, s.StoresAt fragment base := by
  by_cases hhead : fragment.head? = some delim
  · exact .inr ⟨0, .inl ⟨hhead, rfl⟩⟩
  · by_cases hzero : s.rxLen.toNat = 0
    · exact .inl ⟨hhead, hzero⟩
    · exact .inr ⟨_, .inr ⟨hhead, by omega, rfl⟩⟩

/-! ## The simulation -/

/-- Both outcomes are next states, and these agree. -/
def NextAgree (o o' : Out) : Prop := ∃ t t', o = .next t ∧ o' = .next t' ∧ t.Agrees t'

/-- Two next states that agree. -/
theorem State.Agrees.next (h : s.Agrees s') : NextAgree (.next s) (.next s') := ⟨s, s', rfl, rfl, h⟩

theorem execQueue_agree (h : s.Agrees s') (ident : Ident) (flags : Byte) (d : List Byte) :
    NextAgree (execQueue ident flags d s) (execQueue ident flags d s') := by
  by_cases hp : s.pending = true
  · simp only [execQueue, ← h.pending, hp, if_true]
    exact (h.complete ..).next
  · rw [Bool.not_eq_true] at hp
    by_cases hc : s.connected = true
    · cases he : escCap d (s.config.txCap - frameOverhead) with
      | overflow pre =>
        simp only [execQueue, ← h.pending, ← h.connected, ← h.config, hp, hc, he]
        exact (h.complete ..).next
      | ok e =>
        have hfit : e.length + 6 ≤ s.config.txCap := by
          have hroom := s.config.txCap_range.1
          have hcap := escCap_length_le he
          rw [frameOverhead] at hcap
          omega
        rw [execQueue_commit hp hc he hfit,
          execQueue_commit (h.pending.symm.trans hp) (h.connected.symm.trans hc) (h.config ▸ he) (h.config ▸ hfit),
          ← frameOf_length ident flags e]
        exact ((h.commitFrame _).complete ..).next
    · simp only [execQueue, ← h.pending, ← h.connected, hp, hc]
      exact (h.complete ..).next

/-- The transport's answer adds the same event to both traces. -/
theorem State.Agrees.offerChunk (h : s.Agrees s') (r : Resp) (chunk : List Byte) :
    (offerChunk r chunk s).1.Agrees (offerChunk r chunk s').1 ∧
      (offerChunk r chunk s).2 = (offerChunk r chunk s').2 := by
  cases r with
  | accept => exact ⟨h.emit _, rfl⟩
  | exhaust => exact ⟨h, rfl⟩

theorem offerChunk_pending (r : Resp) (chunk : List Byte) (s : State) :
    (offerChunk r chunk s).1.pending = s.pending := by
  cases r <;> rfl

/-- A pending frame has been written whole, so the chunk can be read, and it lies below tx_len, where the two TXBs are
alike. -/
theorem execPump_agree (hs : s.Inv) (h : s.Agrees s') : NextAgree (execPump s) (execPump s') := by
  by_cases hp : s.pending = true
  · have hle := hs.txSent_le
    have hcap := hs.txLen_le
    obtain ⟨n, hn⟩ : ∃ n, n = min (s.txLen.toNat - s.txSent.toNat) s.config.chunkSize := ⟨_, rfl⟩
    obtain ⟨chunk, hlen, hholds⟩ :=
      Memory.exists_holds (hs.pending_written hp) (a := s.txSent.toNat) (k := n) (by omega)
    have hholds' : s'.txb.Holds s.txSent.toNat chunk := fun k hk => by
      rw [← h.txb hp _ (by omega)]
      exact hholds k hk
    have hrun := execPump_pending hp hle hn (by omega) hlen hholds
    have hrun' : execPump s' = _ :=
      execPump_pending (n := n) (chunk := chunk) (h.pending ▸ hp) (by rw [← h.txLen hp, ← h.txSent hp]; exact hle)
        (by rw [← h.txLen hp, ← h.txSent hp, ← h.config]; exact hn)
        (by rw [← h.txSent hp, ← h.config]; omega) hlen (by rw [← h.txSent hp]; exact hholds')
    obtain ⟨hoffered, hcode⟩ := h.drawn.offerChunk s.resp chunk
    rw [hrun, hrun', ← h.resp, ← h.txSent hp, ← hcode]
    exact ((hoffered.advance ((offerChunk_pending ..).trans hp) _).complete ..).next
  · simp only [execPump, ← h.pending, hp]
    exact (h.complete ..).next

/-- A complete frame's outcome is decided by its unescaped bytes and the configuration. -/
theorem frameComplete_agree (h : s.Agrees s') (u : List Byte) {n : Nat}
    (hb : ∀ a < n, s.rxb.get? a = s'.rxb.get? a) : NextAgree (frameComplete u n s) (frameComplete u n s') := by
  have hempty : (s.withRxLen 0).Agrees (s'.withRxLen 0) := h.withRxLen (n := 0) nofun
  by_cases hu : u.length < 4
  · simp only [frameComplete, if_pos hu]
    exact (hempty.complete ..).next
  · obtain ⟨lo, hi, flags, payload, rcv, rfl⟩ := exists_fields (Nat.le_of_not_lt hu)
    rw [frameComplete_fields, frameComplete_fields, ← h.config]
    split
    · refine (((h.emit _).withRxLen fun a ha => hb a ?_).complete ..).next
      split at ha <;> omega
    · exact ((hempty.emit _).complete ..).next

/-- With n bytes written and alike, the completion test reads the same last byte and the same span. -/
theorem afterStore_agree (h : s.Agrees s') {n : Nat} (hn : n ≤ s.config.rxCap) (hwritten : s.rxb.Written n)
    (hb : ∀ a < n, s.rxb.get? a = s'.rxb.get? a) : NextAgree (afterStore n s) (afterStore n s') := by
  have hn' : n ≤ s'.config.rxCap := h.config ▸ hn
  have hwait := ((h.withRxLen hb).complete .assembling (len8 n) []).next
  by_cases h2 : n < 2
  · rwa [afterStore_wait (.inl h2), afterStore_wait (.inl h2)]
  · obtain ⟨b, hlast⟩ := Option.isSome_iff_exists.mp (hwritten (n - 1) (by omega))
    have hlast' : s'.rxb.get? (n - 1) = some b := (hb _ (by omega)).symm.trans hlast
    by_cases hd : b = delim
    · subst hd
      obtain ⟨span, hlen, hspan⟩ := Memory.exists_holds hwritten (a := 1) (k := n - 2) (by omega)
      have hspan' : s'.rxb.Holds 1 span := fun k hk => by
        rw [← hb _ (by omega)]
        exact hspan k hk
      rw [afterStore_complete (by omega) hn hlast hlen hspan, afterStore_complete (by omega) hn' hlast' hlen hspan']
      exact frameComplete_agree h _ hb
    · rwa [afterStore_wait (.inr ⟨hn, b, hlast, hd⟩), afterStore_wait (.inr ⟨hn', b, hlast', hd⟩)]

theorem execIngest_agree (hs : s.Inv) (h : s.Agrees s') {fragment : List Byte} (hne : fragment ≠ []) :
    NextAgree (execIngest fragment s) (execIngest fragment s') := by
  obtain ⟨hhead, hzero⟩ | ⟨base, hbase⟩ := stray_or_storesAt s fragment
  · rw [execIngest_stray hne hhead hzero, execIngest_stray hne hhead (h.rxLen ▸ hzero)]
    exact (h.complete ..).next
  · have hbase' := h.storesAt hbase
    by_cases hfit : base + fragment.length ≤ s.config.rxCap
    · rw [execIngest_store hne hbase hfit, execIngest_store hne hbase' (h.config ▸ hfit)]
      exact afterStore_agree (h.store base fragment) hfit (stored_written_and_led hs hne hbase).1
        (h.stored_alike hbase)
    · have hover := Nat.lt_of_not_le hfit
      rw [execIngest_overflow hne hbase hover, execIngest_overflow hne hbase' (h.config ▸ hover)]
      exact ((h.withRxLen (n := 0) nofun).complete ..).next

/-- One command from two states that agree; that s meets the invariant is enough, for what s' reads is what s reads. -/
theorem exec_agree {i : Instr} (hwf : i.wf = true) (hi : i ≠ .readStatus) (hs : s.Inv) (h : s.Agrees s') :
    NextAgree (exec i s) (exec i s') := by
  cases i with
  | crc8 | unescape => exact (h.complete ..).next
  | escape cap d =>
    simp only [exec, execEscape]
    cases escCap d cap.toNat <;> exact (h.complete ..).next
  | queue ident flags d => exact execQueue_agree h ident flags d
  | pump => exact execPump_agree hs h
  | ingest fragment => exact execIngest_agree hs h (by rintro rfl; simp [Instr.wf] at hwf)
  | connect => exact (h.linkUp.complete ..).next
  | disconnect => exact (h.linkDown.complete ..).next
  | readStatus => exact absurd rfl hi

/-- Settles O58: the simulation, one command at a time. -/
theorem unreadStateIsUnobservable : Obligations.UnreadStateIsUnobservable :=
  fun _ _ _ hwf hi hs _ h => exec_agree hwf hi hs h

/-! ## No step stops -/

/-- A row of the table builds only commands whose data length is in the range it admits (30_encoding.md R83). -/
theorem opcodeRows_build_wf {r : OpRow} (hr : r ∈ opcodeRows) (w : Word) {d : List Byte} (hd : r.admits d = true) :
    (r.build w d).wf = true := by
  simp only [opcodeRows, List.cons_append, List.nil_append, List.mem_cons, List.not_mem_nil, or_false] at hr
  rcases hr with rfl | rfl | rfl | rfl | rfl | rfl | rfl | rfl | rfl <;> simp_all [OpRow.admits, Instr.wf]

/-- What decoding yields is well formed (30_encoding.md R85 (b), R86). -/
theorem decode_wf {c : Cmd} {i : Instr} (h : c.decode = .instr i) : i.wf = true := by
  unfold Cmd.decode decode at h
  split at h
  · cases h
  · rename_i r hfind
    split at h
    · rename_i hadmits
      cases h
      exact opcodeRows_build_wf (List.mem_of_find?_eq_some hfind) _ hadmits
    · cases h

/-- A well-formed command answers a next state: READ_STATUS always does, and every other one answers as its simulation
of itself does. -/
theorem exec_answers {i : Instr} (hwf : i.wf = true) (hs : s.Inv) : ∃ t, exec i s = .next t := by
  by_cases hi : i = .readStatus
  · subst hi
    exact ⟨_, rfl⟩
  · obtain ⟨t, -, ht, -⟩ := exec_agree hwf hi hs (.refl s)
    exact ⟨t, ht⟩

/-- Settles O11: idle and ILLEGAL steps answer, and a decoded command is well formed. -/
theorem noStepStops : Obligations.NoStepStops := by
  intro s hs
  cases hp : s.port with
  | nil => exact ⟨s, step_nil hp⟩
  | cons c rest =>
    rw [step_cons hp]
    cases hd : c.decode with
    | instr i =>
      rw [execCmd_instr hd]
      exact exec_answers (decode_wf hd) (hs.withPort rest)
    | illegal why => exact ⟨_, execCmd_illegal hd _⟩

end Sys2Proof.Machine
end

section
/-! PROOFS. The encoding: the table's rows, and that decoding and encoding undo each other (30_encoding.md R81 to R86). -/

namespace Sys2Proof.Machine

/-! ## The rows of the table -/

/-- Settles O1: decoding computes. -/
theorem decodesWordsOfTheTable : Obligations.DecodesWordsOfTheTable := by
  unfold Obligations.DecodesWordsOfTheTable
  decide

/-- Every mask of the table covers OP, so a row matches only words with the OP of its pattern. -/
theorem opField_of_match {r : OpRow} (hr : r ∈ opcodeRows) {w : Word} (h : w &&& r.mask = r.pattern) :
    opField w = opField r.pattern := by
  have hmask : ∀ r ∈ opcodeRows, opField r.mask = BitVec.allOnes 4 := by decide
  rw [← h, opField, opField, BitVec.extractLsb'_and, ← opField, ← opField, hmask r hr, BitVec.and_allOnes]

/-- Settles O5: a word that two rows match has the OP of both patterns, and no two patterns have the same. -/
theorem noTwoRowsMatchOneWord : Obligations.NoTwoRowsMatchOneWord := by
  have hops : opcodeRows.Pairwise fun r r' => opField r.pattern ≠ opField r'.pattern := by decide
  refine ⟨rfl, hops.imp_of_mem fun hr hr' hne w hboth => hne ?_⟩
  exact (opField_of_match hr hboth.1).symm.trans (opField_of_match hr' hboth.2)

/-! ## Decoding what is encoded -/

/-- Settles O2: the fields of an encoding are the opcode and the operands, so `decode_eq` comes to the command's own row,
whose data lengths are those of a well-formed command. -/
theorem decodeInvertsEncode : Obligations.DecodeInvertsEncode := by
  intro i hwf
  rw [Cmd.decode, decode_eq]
  cases i with
  | crc8 d | unescape d | escape cap d | queue ident flags d =>
    have hlen := of_decide_eq_true hwf
    simp [encode, commandWord, hlen]
  | ingest f =>
    simp only [Instr.wf, Bool.and_eq_true, decide_eq_true_eq] at hwf
    simp [encode, commandWord, hwf]
  | pump | connect | disconnect | readStatus => simp [encode, commandWord]

/-! ## Encoding what is decoded -/

/-- A word that a full mask matches is its pattern, the command word without operands. -/
theorem commandWord_of_full_mask {w : Word} {k : BitVec 4} (h : w &&& 0xFFFFFFFF#32 = fieldsWord 0#16 0#8 0#4 k) :
    commandWord 0#16 0#8 k = w :=
  ((fieldsWord_eta_iff ..).mpr ((full_mask_iff w k).mp h)).symm

/-- A word that a row matches is the word of the command the row builds: what the mask leaves free is an operand. -/
theorem opcodeRows_encode_build_word {r : OpRow} (hr : r ∈ opcodeRows) {w : Word} (h : w &&& r.mask = r.pattern)
    (d : List Byte) : (encode (r.build w d)).word = w := by
  simp only [opcodeRows, List.cons_append, List.nil_append, List.mem_cons, List.not_mem_nil, or_false] at hr
  rcases hr with rfl | rfl | rfl | rfl | rfl | rfl | rfl | rfl | rfl
  case inr.inl =>  -- ESCAPE
    obtain ⟨hid, hrsv, hop⟩ := (escape_mask_iff w 0x2#4).mp h
    exact ((fieldsWord_eta_iff ..).mpr ⟨hid, rfl, hrsv, hop⟩).symm
  case inr.inr.inr.inl =>  -- QUEUE
    obtain ⟨hrsv, hop⟩ := (queue_mask_iff w 0x4#4).mp h
    exact ((fieldsWord_eta_iff ..).mpr ⟨rfl, rfl, hrsv, hop⟩).symm
  all_goals exact commandWord_of_full_mask h

/-- A data vector that a row admits is the data vector of the command the row builds. -/
theorem opcodeRows_encode_build_data {r : OpRow} (hr : r ∈ opcodeRows) (w : Word) {d : List Byte}
    (hd : r.admits d = true) : (encode (r.build w d)).data = d := by
  simp only [opcodeRows, List.cons_append, List.nil_append, List.mem_cons, List.not_mem_nil, or_false] at hr
  rcases hr with rfl | rfl | rfl | rfl | rfl | rfl | rfl | rfl | rfl <;> simp_all [OpRow.admits, encode]

/-- What decodes to a command matches and is admitted by a row that builds that command. -/
theorem exists_row_of_decode {c : Cmd} {i : Instr} (h : c.decode = .instr i) :
    ∃ r ∈ opcodeRows, c.word &&& r.mask = r.pattern ∧ r.admits c.data = true ∧ r.build c.word c.data = i := by
  unfold Cmd.decode decode at h
  split at h
  · cases h
  · rename_i r hfind
    split at h
    · rename_i hadmits
      cases h
      have hsel := List.find?_some hfind
      exact ⟨r, List.mem_of_find?_eq_some hfind, eq_of_beq hsel, hadmits, rfl⟩
    · cases h

/-- Settles O3: the row that the command selects builds an instruction with the command's own word and data. -/
theorem oneWordForEachCommand : Obligations.OneWordForEachCommand := by
  intro c i h
  obtain ⟨r, hr, hword, hdata, rfl⟩ := exists_row_of_decode h
  exact ⟨congrArg₂ Cmd.mk (opcodeRows_encode_build_word hr hword c.data) (opcodeRows_encode_build_data hr c.word hdata),
    decode_wf h⟩

/-! ## Illegal commands -/

/-- The opcodes of 30_encoding.md R83. -/
def opcodes : List (BitVec 4) := [0x1#4, 0x2#4, 0x3#4, 0x4#4, 0x5#4, 0x6#4, 0x7#4, 0x8#4, 0x9#4]

theorem mem_opcodes_iff : ∀ op : BitVec 4, op ∈ opcodes ↔ ¬ (op = 0x0#4 ∨ 0xA ≤ op.toNat) := by decide

/-- A test before a decoding adds its failure to the reasons why that decoding is illegal. -/
theorem exists_illegal_ite {p : Prop} [Decidable p] {x : Decoded} {a : Illegal} :
    (∃ why, (if p then x else .illegal a) = .illegal why) ↔ (p → ∃ why, x = .illegal why) := by
  by_cases hp : p <;> simp [hp]

/-- No row has an OP outside the opcodes. -/
theorem decode_of_op_notMem {w : Word} (d : List Byte) (hop : opField w ∉ opcodes) :
    decode w d = .illegal .noRowMatches := by
  simp only [opcodes, List.mem_cons, List.not_mem_nil, or_false, not_or] at hop
  simp [decode_eq, hop]

/-- At an opcode one row is left: the command is illegal where a field that the row's mask covers is not 0, or the data
length is outside the row's range. -/
theorem decode_illegal_iff_of_op_mem {w : Word} {d : List Byte} (hop : opField w ∈ opcodes) (hd : d.length ≤ 255) :
    (∃ why, decode w d = .illegal why) ↔
      rsvField w ≠ 0#4 ∨
      (arg8Field w ≠ 0#8 ∧ opField w ≠ 0x2#4 ∧ opField w ≠ 0x4#4) ∨
      (identField w ≠ 0#16 ∧ opField w ≠ 0x4#4) ∨
      (d ≠ [] ∧ opField w ∈ [0x5#4, 0x7#4, 0x8#4, 0x9#4]) ∨
      (d = [] ∧ opField w = 0x6#4) := by
  simp only [opcodes, List.mem_cons, List.not_mem_nil, or_false] at hop
  rw [decode_eq]
  rcases hop with hop | hop | hop | hop | hop | hop | hop | hop | hop <;>
    simp [hop, hd, dataMax, exists_illegal_ite, imp_iff_not_or, or_comm, or_left_comm, or_assoc]

/-- Settles O4: OP is outside the opcodes, or its row's tests decide. -/
theorem illegalCommands : Obligations.IllegalCommands := by
  refine ⟨fun c hd => ?_, fun s c why h => execCmd_illegal h s⟩
  rw [← or_assoc]
  by_cases hop : opField c.word ∈ opcodes
  · rw [or_iff_right ((mem_opcodes_iff _).mp hop)]
    exact decode_illegal_iff_of_op_mem hop hd
  · exact iff_of_true ⟨_, decode_of_op_notMem c.data hop⟩ (.inl ((mem_opcodes_iff _).not_left.mp hop))

end Sys2Proof.Machine
end

section
/-! PROOFS. Where DELIM and ESC stand in an escaped sequence and in a frame, and that unescaping never lengthens
(30_encoding.md R73, 41_codec.md R120 to R124, 42_transmit.md R154). -/

namespace Sys2Proof.Machine

/-! ## Escaped sequences -/

/-- An escaped byte is ESC with a byte that names it, or it stands for itself (41_codec.md R120). -/
theorem escByte_pair_or_self (b : Byte) :
    (∃ x, (x = escDelim ∨ x = escEsc) ∧ escByte b = [esc, x]) ∨ (b ≠ delim ∧ b ≠ esc ∧ escByte b = [b]) := by
  obtain ⟨-, e⟩ | ⟨-, e⟩ | hself := escByte_cases b
  · exact .inl ⟨_, .inl rfl, e⟩
  · exact .inl ⟨_, .inr rfl, e⟩
  · exact .inr hself

/-- An escaped sequence holds no DELIM (41_codec.md R121). -/
theorem delim_notMem_escSeq (d : List Byte) : delim ∉ escSeq d := by
  induction d with
  | nil => simp
  | cons b d ih =>
    rw [escSeq_cons, List.mem_append, not_or]
    refine ⟨?_, ih⟩
    obtain ⟨x, hx, e⟩ | ⟨hdelim, -, e⟩ := escByte_pair_or_self b <;> rw [e]
    · rcases hx with rfl | rfl <;> decide
    · rw [List.mem_singleton]; exact hdelim.symm

/-- In an escaped sequence an ESC is followed by ESC_DELIM or ESC_ESC (41_codec.md R121). -/
theorem escSeq_esc_next {d : List Byte} {k : Nat} (h : (escSeq d)[k]? = some esc) :
    (escSeq d)[k + 1]? = some escDelim ∨ (escSeq d)[k + 1]? = some escEsc := by
  induction d generalizing k with
  | nil => simp at h
  | cons b d ih =>
    rw [escSeq_cons] at h ⊢
    obtain ⟨x, hx, e⟩ | ⟨-, hesc, e⟩ := escByte_pair_or_self b <;> rw [e] at h ⊢
    · rcases k with _ | _ | k
      · exact hx.imp (congrArg some) (congrArg some)
      · rcases hx with rfl | rfl <;> simp [escDelim, escEsc, esc] at h
      · exact ih h
    · rcases k with _ | k
      · simp [hesc] at h
      · exact ih h

/-! ## Unescaped sequences -/

/-- A replaced pair is one byte shorter, and everything else is copied (41_codec.md R123). -/
theorem replacePass_length_le (x y r : Byte) (l : List Byte) : (replacePass x y r l).length ≤ l.length := by
  induction l using replacePass.induct x y with
  | case1 => simp
  | case2 => simp
  | case3 a b l hpair ih =>
    obtain ⟨rfl, rfl⟩ := hpair
    rw [replacePass_pair]
    simp only [List.length_cons]
    omega
  | case4 a b l hpair ih =>
    rw [replacePass, if_neg hpair]
    simp only [List.length_cons] at ih ⊢
    omega

/-- Unescaping never lengthens (41_codec.md R124). -/
theorem unesc_length_le (l : List Byte) : (unesc l).length ≤ l.length :=
  (replacePass_length_le ..).trans (replacePass_length_le ..)

/-! ## Frames -/

/-- A frame's bytes between the flags and the checksum are the escaped payload's (42_transmit.md R154). -/
theorem frameOf_getElem?_payload (ident : Ident) (flags : Byte) {e : List Byte} {k : Nat} (hk : k < e.length) :
    (frameOf ident flags e)[k + 4]? = e[k]? := by
  have hsplit : frameOf ident flags e =
      [delim, identLo ident, identHi ident, flags] ++ e ++ [crc8 (frameBody ident flags e), delim] := by
    simp [frameOf, frameBody]
  rw [hsplit, List.append_assoc, List.getElem?_append_right (by simp), List.getElem?_append_left (by simpa using hk)]
  rfl

/-- Settles O32: 4 bytes stand before the escaped payload and 2 behind it, and the payload is escaped. -/
theorem delimitersInsideAQueuedFrame : Obligations.DelimitersInsideAQueuedFrame := by
  refine ⟨fun ident flags d k h => ?_, fun ident flags d k h hk => ?_, by decide +kernel⟩
  · have hlen : k < (escSeq d).length + 6 := by
      rw [← frameOf_length ident flags]
      exact (List.getElem?_eq_some_iff.mp h).1
    have hout : ∀ j < (escSeq d).length, k ≠ j + 4 := by
      rintro j hj rfl
      rw [frameOf_getElem?_payload ident flags hj] at h
      exact delim_notMem_escSeq d (List.mem_of_getElem? h)
    have := hout (k - 4)
    simp only [List.mem_cons, List.not_mem_nil, or_false]
    omega
  · rw [frameOf_getElem?_payload ident flags hk] at h
    have hnext := escSeq_esc_next h
    have hk' : k + 1 < (escSeq d).length := by
      obtain h' | h' := hnext <;> exact (List.getElem?_eq_some_iff.mp h').1
    rw [show k + 5 = k + 1 + 4 from rfl, frameOf_getElem?_payload ident flags hk']
    exact ⟨hk', hnext⟩

end Sys2Proof.Machine
end

section
/-! PROOFS. What a command answers and what it emits: one result, and at most one event, which its code decides
(30_encoding.md R90 to R92). -/

namespace Sys2Proof.Machine

/-! ## Answers and their events -/

/-- The codes that i may answer with while it emits nothing (30_encoding.md R91). -/
@[simp] def silentCodes : Instr → List ResultCode
  | .crc8 _ => [.ok]
  | .escape _ _ => [.ok, .overflow]
  | .unescape _ => [.ok]
  | .queue _ _ _ => [.ok, .busy, .notConnected, .overflow]
  | .pump => [.idle, .sendExhausted]
  | .ingest _ => [.discarded, .assembling, .runt, .rxOverflow]
  | .connect => [.ok]
  | .disconnect => [.ok]
  | .readStatus => [.ok]

/-- The codes that i may answer with in s, each with the events it emits then (30_encoding.md R91, R92). -/
inductive State.MayAnswer (s : State) : Instr → ResultCode → List Event → Prop
  | silent {i : Instr} {code : ResultCode} (h : code ∈ silentCodes i) : s.MayAnswer i code []
  | chunk {bytes : List Byte} (hle : bytes.length ≤ s.config.chunkSize) (hpos : s.Inv → 1 ≤ bytes.length) :
    s.MayAnswer .pump .ok [.txChunk bytes]
  | packet {fragment payload : List Byte} (ident : Ident) (flags : Byte)
      (hle : payload.length ≤ s.config.rxCap - 6) :
    s.MayAnswer (.ingest fragment) .dispatched [.rxPacket ident flags payload]
  | checksumFail {fragment : List Byte} : s.MayAnswer (.ingest fragment) .checksumMismatch [.rxChecksumFail]

/-- From s to t there is one result more, and the events that go with its code. -/
def State.Answered (s : State) (i : Instr) (t : State) : Prop :=
  ∃ (r : Result) (evs : List Event),
    t.results = s.results ++ [r] ∧ t.trace = s.trace ++ evs ∧ s.MayAnswer i r.code evs

variable {s t : State}

theorem State.Answered.silent {i : Instr} {r : Result} (hresults : t.results = s.results ++ [r])
    (htrace : t.trace = s.trace) (hcode : r.code ∈ silentCodes i) : s.Answered i t :=
  ⟨r, [], hresults, by rw [htrace, List.append_nil], .silent hcode⟩

/-! ## Every command answers so -/

/-- QUEUE emits nothing. -/
theorem execQueue_answered {ident : Ident} {flags : Byte} {d : List Byte} (h : execQueue ident flags d s = .next t) :
    s.Answered (.queue ident flags d) t := by
  obtain ⟨-, rfl⟩ | ⟨-, -, rfl⟩ | ⟨-, -, -, rfl⟩ | ⟨-, -, _, -, -, rfl⟩ := execQueue_cases h <;>
    exact .silent rfl rfl (by simp)

/-- A pending frame has bytes left, and CHUNK_SIZE is at least 1, so a chunk is never empty. -/
theorem execPump_answered (h : execPump s = .next t) : s.Answered .pump t := by
  obtain ⟨-, rfl⟩ | ⟨hp, n, chunk, -, hn, -, hlen, -, ⟨-, rfl⟩ | ⟨-, rfl⟩⟩ := execPump_cases h
  · exact .silent rfl rfl (by simp)
  · refine ⟨_, _, rfl, rfl, .chunk ?_ fun hs => ?_⟩
    · omega
    · have hleft := hs.pending_sent hp
      have hsize := s.config.chunkSize_range.1
      omega
  · exact .silent rfl rfl (by simp)

/-- A complete frame's payload is its unescaped span without identifier, flags and checksum. -/
theorem frameComplete_answered {m : Memory} {u fragment : List Byte} {n : Nat} (hu : u.length + 2 ≤ s.config.rxCap)
    (h : frameComplete u n (s.withRxb m) = .next t) : s.Answered (.ingest fragment) t := by
  obtain ⟨-, e⟩ | ⟨_, _, -, -, -, e⟩ | ⟨lo, hi, flags, payload, hfields, e⟩ := frameComplete_cases u n (s.withRxb m) <;>
    (rw [e] at h; cases h)
  · exact .silent rfl rfl (by simp)
  · exact ⟨_, _, rfl, rfl, .checksumFail⟩
  · refine ⟨_, _, rfl, rfl, .packet _ _ ?_⟩
    have hlen : u.length = payload.length + 4 := by simp [hfields]
    omega

theorem afterStore_answered {m : Memory} {fragment : List Byte} {n : Nat} (h : afterStore n (s.withRxb m) = .next t) :
    s.Answered (.ingest fragment) t := by
  obtain ⟨-, rfl⟩ | ⟨-, -, _, -, -, rfl⟩ | ⟨h2, hn, -, span, hspan, -, h⟩ := afterStore_cases h
  · exact .silent rfl rfl (by simp)
  · exact .silent rfl rfl (by simp)
  · have hle := unesc_length_le span
    exact frameComplete_answered (by rw [State.withRxb_config] at hn; omega) h

theorem execIngest_answered {fragment : List Byte} (h : execIngest fragment s = .next t) :
    s.Answered (.ingest fragment) t := by
  obtain ⟨-, ⟨-, -, rfl⟩ | ⟨-, rfl⟩ | ⟨base, -, -, h⟩⟩ := execIngest_cases h
  · exact .silent rfl rfl (by simp)
  · exact .silent rfl rfl (by simp)
  · exact afterStore_answered h

/-- Every command answers one result, with the events that go with its code. -/
theorem exec_answered {i : Instr} (h : exec i s = .next t) : s.Answered i t := by
  cases i with
  | crc8 | unescape | connect | disconnect | readStatus => cases h; exact .silent rfl rfl (by simp)
  | escape cap d =>
    obtain ⟨r, e, hcode⟩ := execEscape_eq cap d s
    cases e.symm.trans h
    exact .silent rfl rfl (by simpa using hcode)
  | queue ident flags d => exact execQueue_answered h
  | pump => exact execPump_answered h
  | ingest fragment => exact execIngest_answered h

/-! ## Events and codes -/

/-- DISPATCHED and CHECKSUM_MISMATCH come with an event (30_encoding.md R92). -/
theorem silentCodes_ne {i : Instr} {code : ResultCode} (h : code ∈ silentCodes i) :
    code ≠ .dispatched ∧ code ≠ .checksumMismatch := by
  constructor <;> rintro rfl <;> cases i <;> simp at h

/-- Settles O54: `State.MayAnswer` says which event goes with which code, and bounds the chunk and the payload. -/
theorem eventsOfACommand : Obligations.EventsOfACommand := by
  intro i s t h
  obtain ⟨r, evs, hresults, htrace, hanswer⟩ := exec_answered h
  refine ⟨r, evs, hresults, htrace, ?_⟩
  cases r with | mk code value data
  cases hanswer with
  | silent hcode =>
    obtain ⟨hdispatched, hmismatch⟩ := silentCodes_ne hcode
    have hpump : ¬ (i = .pump ∧ code = .ok) := by
      rintro ⟨rfl, rfl⟩
      simp at hcode
    simp [hpump, hdispatched, hmismatch]
  | chunk hle hpos => simpa [hle] using hpos
  | packet ident flags hle => simp [hle]
  | checksumFail => simp

/-- The result codes in the order of their numbers. -/
def ResultCode.all : List ResultCode :=
  [.ok, .busy, .notConnected, .overflow, .idle, .sendExhausted, .discarded, .assembling, .dispatched,
    .checksumMismatch, .runt, .rxOverflow, .illegal]

theorem ResultCode.mem_all (c : ResultCode) : c ∈ ResultCode.all := by cases c <;> decide

theorem ResultCode.bits_inj {c d : ResultCode} (h : c.bits = d.bits) : c = d :=
  List.inj_on_of_nodup_map (by decide) c.mem_all d.mem_all h

/-- Codes 0xC to 0xE are reserved (30_encoding.md R91). -/
theorem ResultCode.bits_notMem_reserved : ∀ c ∈ ResultCode.all, c.bits ∉ [0xC#4, 0xD#4, 0xE#4] := by decide

/-- Settles O55: the numbers are read off the list of all codes, and each answer is one that `State.MayAnswer` allows. -/
theorem resultCodesByCommand : Obligations.ResultCodesByCommand := by
  refine ⟨rfl, fun _ _ => ResultCode.bits_inj, fun c => c.bits_notMem_reserved c.mem_all, fun _ => rfl,
    fun i s t r h hr => ?_⟩
  obtain ⟨r', evs, hresults, -, hanswer⟩ := exec_answered h
  obtain rfl : r' = r := by simpa using hresults.symm.trans hr
  cases r' with | mk code value data
  cases hanswer with
  | silent hcode =>
    cases i with
    | crc8 | escape | unescape | queue | connect | disconnect | readStatus => exact hcode
    | pump => exact List.mem_cons_of_mem _ hcode
    | ingest fragment =>
      simp only [silentCodes, List.mem_cons, List.not_mem_nil, or_false] at hcode ⊢
      tauto
  | chunk | packet | checksumFail => simp

end Sys2Proof.Machine
end

section
/-! PROOFS. The CRC-8 generator: its equivalent forms, the laws of crc8, and the CRC8 command (40_checksum.md R100 to
R106). -/

namespace Sys2Proof.Machine

/-! ## One step of the generator -/

/-- What a step xors into the shifted CRC: 0x8C when the feedback bit, bit 0 of x, is set (40_checksum.md R103). -/
def crcFeedback (x : Byte) : Byte := bif x.getLsbD 0 then 0x8C#8 else 0x00#8

/-- One iteration of R103's loop. -/
def crcShift (c : Byte) : Byte := (c >>> 1) ^^^ crcFeedback c

theorem crcFeedback_eq_ite (x : Byte) : crcFeedback x = if x &&& 1#8 = 1#8 then 0x8C#8 else 0x00#8 := by
  rw [crcFeedback, BitVec.and_one_eq_setWidth_ofBool_getLsbD]
  cases x.getLsbD 0 <;> rfl

theorem crcFeedback_xor (x y : Byte) : crcFeedback (x ^^^ y) = crcFeedback x ^^^ crcFeedback y := by
  simp only [crcFeedback, BitVec.getLsbD_xor]
  cases x.getLsbD 0 <;> cases y.getLsbD 0 <;> rfl

/-- The mask 0x18 before the shift and the bit 0x80 behind it are 0x0C | 0x80 = 0x8C behind it (40_checksum.md R102,
R103). -/
theorem crcBit_eq (c b : Byte) : crcBit c b = (c >>> 1) ^^^ crcFeedback (c ^^^ b) := by
  have hset : ∀ c : Byte, (((c ^^^ crcMask) >>> 1) &&& 0x7F#8) ||| 0x80#8 = (c >>> 1) ^^^ 0x8C#8 := by decide
  have hclear : ∀ c : Byte, (c >>> 1) &&& 0x7F#8 = c >>> 1 := by decide
  rw [crcBit, crcFeedback_eq_ite]
  split
  · exact hset c
  · rw [hclear, BitVec.xor_zero]

theorem crcReflectedBits_succ (k : Nat) (c : Byte) : crcReflectedBits (k + 1) c = crcReflectedBits k (crcShift c) := by
  rw [crcReflectedBits, crcShift, crcFeedback_eq_ite]
  split <;> simp

/-- A step on c ^ b is R100's step on c, with the input bits that are left still xored in. -/
theorem crcShift_xor_input (c b : Byte) : crcShift (c ^^^ b) = crcBit c b ^^^ (b >>> 1) := by
  rw [crcShift, crcBit_eq, BitVec.ushiftRight_xor_distrib]
  ac_rfl

theorem crcShift_xor (x y : Byte) : crcShift (x ^^^ y) = crcShift x ^^^ crcShift y := by
  simp only [crcShift, BitVec.ushiftRight_xor_distrib, crcFeedback_xor]
  ac_rfl

/-- A step loses nothing: bit 7 of what it gives is the bit that it shifted out, since the generator has a constant
term (40_checksum.md R105). -/
theorem crcShift_eq_zero_iff (x : Byte) : crcShift x = 0x00#8 ↔ x = 0x00#8 := by
  revert x
  decide

/-! ## The equivalent forms -/

theorem crcReflectedBits_xor_input (k : Nat) (c b : Byte) :
    crcReflectedBits k (c ^^^ b) = crcBits k c b ^^^ (b >>> k) := by
  induction k generalizing c b with
  | zero => simp [crcReflectedBits, crcBits]
  | succ k ih =>
    rw [crcReflectedBits_succ, crcShift_xor_input, ih, crcBits, ← BitVec.shiftRight_add, Nat.add_comm]

/-- Settles O15: after eight steps no input bit is left. -/
theorem crcEqualsItsReflectedForm : Obligations.CrcEqualsItsReflectedForm := by
  intro c b
  rw [crc8ByteReflected, crcReflectedBits_xor_input, BitVec.ushiftRight_eq_zero (le_refl 8), BitVec.xor_zero, crc8Byte]

theorem crc8Byte_eq (c b : Byte) : crc8Byte c b = crcReflectedBits 8 (c ^^^ b) := crcEqualsItsReflectedForm c b

theorem crcTableAt_eq : ∀ i : Byte, crcTableAt i = crc8Byte 0x00#8 i := by decide

/-- Settles O16: the update reads c and b only through c ^ b, so it is the table's entry there. -/
theorem crcEqualsItsTableForm : Obligations.CrcEqualsItsTableForm := by
  refine ⟨crcTableAt_eq, fun c b => ?_⟩
  rw [crcTableAt_eq, crc8Byte_eq, crc8Byte_eq, BitVec.zero_xor]

/-! ## Linearity -/

theorem crcReflectedBits_xor (k : Nat) (x y : Byte) :
    crcReflectedBits k (x ^^^ y) = crcReflectedBits k x ^^^ crcReflectedBits k y := by
  induction k generalizing x y with
  | zero => rfl
  | succ k ih => simp only [crcReflectedBits_succ, crcShift_xor, ih]

theorem crcReflectedBits_eq_zero_iff (k : Nat) (x : Byte) : crcReflectedBits k x = 0x00#8 ↔ x = 0x00#8 := by
  induction k generalizing x with
  | zero => rfl
  | succ k ih => rw [crcReflectedBits_succ, ih, crcShift_eq_zero_iff]

theorem crc8Byte_self (c : Byte) : crc8Byte c c = 0x00#8 := by
  rw [crc8Byte_eq, BitVec.xor_self, crcReflectedBits_eq_zero_iff]

theorem crc8Byte_xor (c d x y : Byte) : crc8Byte (c ^^^ d) (x ^^^ y) = crc8Byte c x ^^^ crc8Byte d y := by
  simp only [crc8Byte_eq, ← crcReflectedBits_xor]
  congr 1
  ac_rfl

/-- The update takes c and b to the same value as c' and b' exactly when c ^ b = c' ^ b': it is linear with kernel 0. -/
theorem crc8Byte_eq_iff (c b c' b' : Byte) : crc8Byte c b = crc8Byte c' b' ↔ c ^^^ b = c' ^^^ b' := by
  rw [crc8Byte_eq, crc8Byte_eq, ← BitVec.xor_eq_zero_iff, ← crcReflectedBits_xor, crcReflectedBits_eq_zero_iff,
    BitVec.xor_eq_zero_iff]

theorem foldl_crc8Byte_xor {a b : List Byte} (h : a.length = b.length) (c d : Byte) :
    (List.zipWith (fun x y => x ^^^ y) a b).foldl crc8Byte (c ^^^ d) =
      a.foldl crc8Byte c ^^^ b.foldl crc8Byte d := by
  induction a generalizing b c d with
  | nil => rw [List.eq_nil_of_length_eq_zero h.symm]; rfl
  | cons x a ih =>
    obtain ⟨y, b, rfl⟩ := List.exists_cons_of_length_eq_add_one h.symm
    rw [List.zipWith_cons_cons, List.foldl_cons, crc8Byte_xor]
    exact ih (Nat.succ.inj h) _ _

/-! ## Sequences -/

theorem foldl_crc8Byte_injective (s : List Byte) : Function.Injective fun c => s.foldl crc8Byte c := by
  induction s with
  | nil => exact fun _ _ h => h
  | cons b s ih =>
    intro c c' h
    exact (BitVec.xor_left_inj b).mp ((crc8Byte_eq_iff ..).mp (ih h))

theorem crc8_replicate_zero (n : Nat) : crc8 (List.replicate n 0x00#8) = 0x00#8 := by
  have hfixed : crc8Byte crcInit 0x00#8 = crcInit := crc8Byte_self 0x00#8
  induction n with
  | zero => rfl
  | succ n ih =>
    rw [crc8, List.replicate_succ, List.foldl_cons, hfixed]
    exact ih

/-- Two bytes at one place that give one CRC are the same: the bytes before them leave one CRC, and no byte behind them
brings two CRCs together. -/
theorem eq_of_crc8_set_eq {s : List Byte} {k : Nat} (hk : k < s.length) {b b' : Byte}
    (h : crc8 (s.set k b) = crc8 (s.set k b')) : b = b' := by
  simp only [crc8, List.set_eq_take_cons_drop _ hk, List.foldl_append, List.foldl_cons] at h
  exact (BitVec.xor_right_inj _).mp ((crc8Byte_eq_iff ..).mp (foldl_crc8Byte_injective _ h))

theorem flip_bit_ne (b : Byte) {j : Nat} (hj : j < 8) : b ^^^ (1#8 <<< j) ≠ b := by
  have hbit : ∀ j < 8, 1#8 <<< j ≠ 0x00#8 := by decide
  exact fun h => hbit j hj ((BitVec.xor_right_inj b).mp (h.trans BitVec.xor_zero.symm))

/-- Settles O17: one update is linear with kernel 0, so the fold over a sequence is linear and loses no change of one
byte. -/
theorem crcLaws : Obligations.CrcLaws := by
  refine ⟨⟨rfl, crc8_replicate_zero⟩, fun a b h => foldl_crc8Byte_xor h crcInit crcInit, fun s => ?_,
    fun s k b j hb hj hcrc => ?_⟩
  · rw [crc8, List.foldl_concat]
    exact crc8Byte_self _
  · obtain ⟨hk, rfl⟩ := List.getElem?_eq_some_iff.mp hb
    exact flip_bit_ne _ hj (eq_of_crc8_set_eq hk (hcrc.trans (by rw [List.set_getElem_self])))

/-! ## The CRC8 command -/

/-- Settles O18: W is the encoding of CRC8, with any data of at most 255 bytes. -/
theorem crc8Command : Obligations.Crc8Command :=
  ⟨fun d hd => decodeInvertsEncode (.crc8 d) (decide_eq_true hd), fun _ _ => rfl, rfl, rfl, rfl, by decide +kernel⟩

end Sys2Proof.Machine
end

section
/-! PROOFS. The codec: the escaped form and escaping with a capacity, unescaping pair by pair, and the commands ESCAPE
and UNESCAPE (41_codec.md R120 to R134). -/

namespace Sys2Proof.Machine

/-! ## The escaped form -/

/-- An escaped byte is one byte longer where it is DELIM or ESC (41_codec.md R120). -/
theorem escByte_length (b : Byte) :
    (escByte b).length = 1 + if (b == 0xC0#8 || b == 0xDB#8) = true then 1 else 0 := by
  obtain ⟨rfl, e⟩ | ⟨rfl, e⟩ | ⟨hdelim, hesc, e⟩ := escByte_cases b
  · rfl
  · rfl
  · simp [e, show b ≠ 0xC0#8 from hdelim, show b ≠ 0xDB#8 from hesc]

theorem escSeq_eq_flatMap (s : List Byte) : escSeq s = s.flatMap escByte := by
  induction s with
  | nil => rfl
  | cons b s ih => rw [escSeq_cons, List.flatMap_cons, ih]

theorem escSeq_length (s : List Byte) :
    (escSeq s).length = s.length + s.countP (fun b => b == 0xC0#8 || b == 0xDB#8) := by
  induction s with
  | nil => rfl
  | cons b s ih =>
    rw [escSeq_cons, List.length_append, escByte_length, ih, List.length_cons, List.countP_cons]
    omega

/-- Settles O19: the pieces and the length by induction; where DELIM and ESC stand is known already. -/
theorem escapedFormShape : Obligations.EscapedFormShape := fun s =>
  ⟨escSeq_eq_flatMap s, escSeq_length s, delim_notMem_escSeq s, fun _ => escSeq_esc_next⟩

/-- An escaped sequence does not end in ESC: every ESC in it has a byte behind it (41_codec.md R121, R126). -/
theorem escSeq_getLast?_ne_esc (s : List Byte) : (escSeq s).getLast? ≠ some esc := by
  rw [List.getLast?_eq_getElem?]
  intro h
  have hnext : (escSeq s).length - 1 + 1 < (escSeq s).length := by
    obtain h' | h' := escSeq_esc_next h <;> exact (List.getElem?_eq_some_iff.mp h').1
  omega

/-! ## Escaping with a capacity -/

/-- R122's loop comes to its end where what is left fits behind the output so far. -/
theorem escCapFrom_fits {cap : Nat} {out s : List Byte} (h : out.length + (escSeq s).length ≤ cap) :
    escCapFrom cap out s = .ok (out ++ escSeq s) := by
  induction s generalizing out with
  | nil => rw [escSeq_nil, List.append_nil, escCapFrom]
  | cons b s ih =>
    rw [escSeq_cons, List.length_append] at h
    rw [escCapFrom, if_neg (by omega), ih (by rw [List.length_append]; omega), List.append_assoc, escSeq_cons]

/-- R122's loop stops before the first byte of the input whose escaped form does not fit behind the output so far. -/
theorem escCapFrom_overflows {cap : Nat} {out s : List Byte} (hout : out.length ≤ cap)
    (h : cap < out.length + (escSeq s).length) :
    ∃ (k : Nat) (b : Byte), s[k]? = some b ∧ escCapFrom cap out s = .overflow (out ++ escSeq (s.take k)) ∧
      (out ++ escSeq (s.take k)).length ≤ cap ∧
      cap < (out ++ escSeq (s.take k)).length + (escByte b).length := by
  induction s generalizing out with
  | nil => exact absurd hout (Nat.not_le.mpr h)
  | cons b s ih =>
    rw [escCapFrom]
    by_cases hb : cap < out.length + (escByte b).length
    · exact ⟨0, b, rfl, by simp [hb], by simpa using hout, by simpa using hb⟩
    · have hout' : (out ++ escByte b).length ≤ cap := by rw [List.length_append]; omega
      rw [escSeq_cons, List.length_append, ← Nat.add_assoc, ← List.length_append] at h
      obtain ⟨k, b', hk, hrest⟩ := ih hout' h
      rw [List.append_assoc] at hrest
      exact ⟨k + 1, b', hk, by rw [if_neg hb]; exact hrest⟩

/-- Settles O20: R122's loop, from an empty output. -/
theorem escapingStopsBeforeTheByteThatDoesNotFit : Obligations.EscapingStopsBeforeTheByteThatDoesNotFit :=
  fun _ cap =>
    ⟨fun h => escCapFrom_fits (by simpa using h), fun h => escCapFrom_overflows (Nat.zero_le cap) (by simpa using h)⟩

/-! ## The ESCAPE command -/

theorem execEscape_ok {cap : Byte} {d out : List Byte} (h : escCap d cap.toNat = .ok out) (s : State) :
    execEscape cap d s = .next (s.complete .ok (len8 out.length) out) := by
  rw [execEscape, h]

theorem execEscape_overflow {cap : Byte} {d pre : List Byte} (h : escCap d cap.toNat = .overflow pre) (s : State) :
    execEscape cap d s = .next (s.complete .overflow (len8 pre.length) pre) := by
  rw [execEscape, h]

/-- ESCAPE's word: RSV and OP together are the byte 0x02 (30_encoding.md R81). -/
theorem commandWord_escape (cap : Byte) : commandWord 0#16 cap 0x2#4 = 0#16 ++ cap ++ 0x02#8 := by
  rw [show 0x02#8 = 0x0#4 ++ 0x2#4 from rfl, BitVec.append_assoc']
  rfl

/-- Settles O21: W is the encoding of ESCAPE, and the outcome is that of escaping with the capacity `cap`. -/
theorem escapeCommand : Obligations.EscapeCommand := by
  refine ⟨fun cap d hd => ?_, fun cap d s hfits => ?_, fun cap d s hover => ?_, rfl, by decide, by decide, by decide⟩
  · rw [← commandWord_escape]
    exact decodeInvertsEncode (.escape cap d) (decide_eq_true hd)
  · exact execEscape_ok ((escapingStopsBeforeTheByteThatDoesNotFit d cap.toNat).1 hfits) s
  · obtain ⟨k, b, hk, hout, hle, hlt⟩ := (escapingStopsBeforeTheByteThatDoesNotFit d cap.toNat).2 hover
    exact ⟨k, b, hk, hle, hlt, escSeq_getLast?_ne_esc _, execEscape_overflow hout s⟩

/-! ## Unescaping, pair by pair -/

/-- Settles O23: neither pass lengthens. -/
theorem unescapeNeverLengthens : Obligations.UnescapeNeverLengthens := unesc_length_le

@[simp] theorem unesc_nil : unesc [] = [] := rfl

/-- An escaped DELIM is replaced in the first pass, and the second copies it (41_codec.md R124). -/
theorem unesc_escDelim (s : List Byte) : unesc (esc :: escDelim :: s) = delim :: unesc s := by
  rw [unesc, replacePass_pair, replacePass_cons_ne (by decide), ← unesc]

/-- An escaped ESC is copied in the first pass and replaced in the second (41_codec.md R124). -/
theorem unesc_escEsc (s : List Byte) : unesc (esc :: escEsc :: s) = esc :: unesc s := by
  rw [unesc, replacePass_cons_cons_ne (by decide), replacePass_cons_ne (a := escEsc) (by decide),
    replacePass_pair, ← unesc]

/-- A pass begins with the first byte of its input, or with the byte that replaces a pair. -/
theorem replacePass_cons_head (x y r a : Byte) (s : List Byte) :
    ∃ c t, replacePass x y r (a :: s) = c :: t ∧ (c = a ∨ c = r) := by
  cases s with
  | nil => exact ⟨a, [], rfl, .inl rfl⟩
  | cons b s =>
    by_cases hpair : a = x ∧ b = y
    · exact ⟨r, _, if_pos hpair, .inr rfl⟩
    · exact ⟨a, _, if_neg hpair, .inl rfl⟩

/-- A byte that begins no escape pair is copied: neither ESC_DELIM nor ESC_ESC stands behind it in the input, and the
first pass puts at most a DELIM there (41_codec.md R124, R130). -/
theorem unesc_cons {a : Byte} {s : List Byte} (h : a = esc → s[0]? ≠ some escDelim ∧ s[0]? ≠ some escEsc) :
    unesc (a :: s) = a :: unesc s := by
  by_cases ha : a = esc
  · cases s with
    | nil => rfl
    | cons b s =>
      obtain ⟨hdelim, hesc⟩ := h ha
      obtain ⟨c, t, hpass, hc⟩ := replacePass_cons_head esc escDelim delim b s
      have hc : c ≠ escEsc := by
        rcases hc with rfl | rfl
        · exact fun e => hesc (congrArg some e)
        · decide
      rw [unesc, unesc, replacePass_cons_cons_ne fun e => hdelim (congrArg some e), hpass,
        replacePass_cons_cons_ne hc]
  · rw [unesc, replacePass_cons_ne ha, replacePass_cons_ne ha, ← unesc]

/-- Settles O24: each byte's escaped form is a pair that is replaced by the byte, or the byte itself, which is not ESC
and is copied. -/
theorem unescapeInvertsEscape : Obligations.UnescapeInvertsEscape := by
  intro p
  induction p with
  | nil => rfl
  | cons b p ih =>
    rw [escSeq_cons]
    obtain ⟨rfl, e⟩ | ⟨rfl, e⟩ | ⟨-, hesc, e⟩ := escByte_cases b <;> rw [e]
    · exact (unesc_escDelim _).trans (congrArg _ ih)
    · exact (unesc_escEsc _).trans (congrArg _ ih)
    · exact (unesc_cons fun hb => absurd hb hesc).trans (congrArg _ ih)

/-- Settles O25: the two passes meet each branch of the left-to-right decoder. -/
theorem twoPassesEqualTheSinglePass : Obligations.TwoPassesEqualTheSinglePass := by
  intro s
  induction s using singlePass.induct with
  | case1 | case2 => rfl
  | case3 a b s hdelim ih =>
    rw [singlePass, if_pos hdelim, ← ih]
    obtain ⟨rfl, rfl⟩ := hdelim
    exact unesc_escDelim s
  | case4 a b s hdelim hesc ih =>
    rw [singlePass, if_neg hdelim, if_pos hesc, ← ih]
    obtain ⟨rfl, rfl⟩ := hesc
    exact unesc_escEsc s
  | case5 a b s hdelim hesc ih =>
    rw [singlePass, if_neg hdelim, if_neg hesc, ← ih]
    exact unesc_cons fun ha => ⟨fun hb => hdelim ⟨ha, Option.some.inj hb⟩, fun hb => hesc ⟨ha, Option.some.inj hb⟩⟩

/-- Settles O26: no byte begins an escape pair, so each is copied. -/
theorem unpairedEscapesPassThrough : Obligations.UnpairedEscapesPassThrough := by
  intro s h
  induction s with
  | nil => rfl
  | cons a s ih => rw [unesc_cons fun ha => h 0 (congrArg some ha), ih fun k => h (k + 1)]

/-- Settles O22: the passes compute, in either order. -/
theorem unescapePassOrder : Obligations.UnescapePassOrder := ⟨by decide, by decide, by decide⟩

/-! ## The UNESCAPE command -/

/-- Settles O27: W is the encoding of UNESCAPE, with any data of at most 255 bytes. -/
theorem unescapeCommand : Obligations.UnescapeCommand :=
  ⟨fun d hd => decodeInvertsEncode (.unescape d) (decide_eq_true hd), fun _ _ => rfl,
    by decide, by decide, by decide, by decide, by decide, by decide, by decide⟩

end Sys2Proof.Machine
end

section
/-! PROOFS. The transmit engine: what QUEUE refuses and what it writes (42_transmit.md R151 to R157), the chunk a PUMP
offers (R160 to R165), and how PUMPs read a frame out (R169). -/

namespace Sys2Proof.Machine

variable {s t : State}

/-! ## QUEUE -/

theorem execQueue_busy (hp : s.pending = true) (ident : Ident) (flags : Byte) (d : List Byte) :
    execQueue ident flags d s = .next (s.complete .busy 0#8 []) := by
  rw [execQueue, if_pos hp]

theorem execQueue_notConnected (hp : s.pending = false) (hc : s.connected = false) (ident : Ident) (flags : Byte)
    (d : List Byte) : execQueue ident flags d s = .next (s.complete .notConnected 0#8 []) := by
  simp [execQueue, hp, hc]

theorem execQueue_overflow {d pre : List Byte} (hp : s.pending = false) (hc : s.connected = true)
    (h : escCap d (s.config.txCap - frameOverhead) = .overflow pre) (ident : Ident) (flags : Byte) :
    execQueue ident flags d s = .next (s.complete .overflow 0#8 []) := by
  simp [execQueue, hp, hc, h]

/-- Settles O28: the first test of QUEUE. -/
theorem queueWhilePendingIsBusy : Obligations.QueueWhilePendingIsBusy := fun ident flags d _ hp =>
  execQueue_busy hp ident flags d

/-- Settles O29: the second test of QUEUE. -/
theorem queueNeedsTheConnection : Obligations.QueueNeedsTheConnection := fun ident flags d _ hp hc =>
  execQueue_notConnected hp hc ident flags d

/-- Escaping with a capacity succeeds exactly where the escaped form fits (41_codec.md R122). -/
theorem exists_escCap_eq_ok_iff (d : List Byte) (cap : Nat) :
    (∃ e, escCap d cap = .ok e) ↔ (escSeq d).length ≤ cap := by
  obtain ⟨hfits, hover⟩ := escapingStopsBeforeTheByteThatDoesNotFit d cap
  refine ⟨fun ⟨e, he⟩ => ?_, fun h => ⟨_, hfits h⟩⟩
  by_contra hlt
  obtain ⟨k, -, -, hpre, -⟩ := hover (Nat.lt_of_not_le hlt)
  rw [he] at hpre
  cases hpre

/-- Settles O30: TX_CAP is at least the 6 bytes that a frame adds to the escaped payload, so the two fit tests are one,
and what fails it makes the encoder overflow. -/
theorem queueOverflowChangesNothing : Obligations.QueueOverflowChangesNothing := by
  intro ident flags d s
  have hroom := s.config.txCap_range.1
  refine ⟨exists_escCap_eq_ok_iff .., ?_, fun hp hc hover => ?_⟩
  · rw [exists_escCap_eq_ok_iff, frameOf_length]
    omega
  · obtain ⟨k, -, -, hpre, -⟩ := (escapingStopsBeforeTheByteThatDoesNotFit d _).2 hover
    exact execQueue_overflow hp hc hpre ident flags

/-- Settles O31: the encoder answers the escaped payload, and the commit writes its frame at offset 0 of TXB. -/
theorem queueWritesTheFrame : Obligations.QueueWritesTheFrame := by
  intro ident flags d s body frame hp hc hfits hbody hframe
  have hframe : frame = frameOf ident flags (escSeq d) := by
    rw [hframe, hbody, List.append_assoc]
    rfl
  have hlen : frame.length = (escSeq d).length + 6 := by rw [hframe, frameOf_length]
  have hroom : frame.length ≤ s.config.txCap := by
    have := s.config.txCap_range.1
    omega
  refine ⟨s.txb.write 0 frame, ?_, hlen, len8_toNat (Nat.le_trans hroom s.config.txCap_range.2), fun k hk => ?_,
    fun a ha => ?_⟩
  · have hcommit := execQueue_commit (ident := ident) (flags := flags) hp hc
      ((escapingStopsBeforeTheByteThatDoesNotFit d _).1 hfits) (hlen ▸ hroom)
    rw [← hframe, ← hlen] at hcommit
    exact hcommit
  · rw [Memory.get?_write, if_pos (by omega), Nat.sub_zero]
  · rw [Memory.get?_write, if_neg (by omega)]

/-! ## One PUMP -/

theorem execPump_idle (hp : s.pending = false) : execPump s = .next (s.complete .idle 0#8 []) := by
  simp [execPump, hp]

/-- Settles O33: the first test of PUMP. -/
theorem pumpWithNothingPending : Obligations.PumpWithNothingPending := fun _ hp => execPump_idle hp

/-- The transport's answer is the oldest one listed (42_transmit.md R160; log 2). -/
theorem State.resp_eq_of_head? {r : Resp} (h : s.answers.head? = some r) : s.resp = r := by
  obtain ⟨rest, hrest⟩ := List.head?_eq_some_iff.mp h
  rw [State.resp, hrest]

/-- The advance of a pending frame, as one update (42_transmit.md R164, R165). -/
theorem State.advance_of_pending (hp : s.pending = true) (n : Nat) :
    s.advance n = { s with txSent := len8 n, pending := !decide (n = s.txLen.toNat) } := by
  rw [State.advance, hp]
  by_cases hend : n = s.txLen.toNat <;> simp [hend]

/-- Settles O34: TXB holds the chunk, and the transport's answer decides between the two outcomes. -/
theorem pumpOffersOneChunk : Obligations.PumpOffersOneChunk := by
  intro s n chunk accepted exhausted hp hleft hcap hn hlen hholds hexhausted haccepted
  have hsize := s.config.chunkSize_range.1
  have hrun := execPump_pending hp hleft.le hn (by omega) hlen hholds
  rw [State.advance_of_pending ((offerChunk_pending s.resp chunk s.drawn).trans hp)] at hrun
  have haccept (h : s.resp = .accept) : exec .pump s = .next accepted := by
    rw [h] at hrun
    exact hrun.trans (congrArg _ haccepted.symm)
  have hexhaust (h : s.resp = .exhaust) : exec .pump s = .next exhausted := by
    rw [h] at hrun
    exact hrun.trans (congrArg _ hexhausted.symm)
  refine ⟨by omega, fun h => haccept (State.resp_eq_of_head? h), fun h => hexhaust (State.resp_eq_of_head? h),
    fun _ => ?_⟩
  cases hr : s.resp with
  | accept => exact .inl (haccept hr)
  | exhaust => exact .inr (hexhaust hr)

/-! ## A sequence of PUMPs -/

/-- The invariant, with `pending` set exactly while a part of the frame is left: so from QUEUE's commit until the next
QUEUE, as long as no DISCONNECT aborts the frame (42_transmit.md R165, R169). -/
structure State.ReadingOut (s : State) : Prop where
  inv : s.Inv
  pending_iff : s.pending = true ↔ s.txSent.toNat < s.txLen.toNat

theorem State.Inv.readingOut (h : s.Inv) (hp : s.pending = true) : s.ReadingOut :=
  ⟨h, fun _ => h.pending_sent hp, fun _ => hp⟩

theorem State.ReadingOut.complete (h : s.ReadingOut) (code : ResultCode) (value : Byte) (data : List Byte) :
    (s.complete code value data).ReadingOut :=
  ⟨h.inv.complete .., h.pending_iff⟩

/-- The advance clears `pending` exactly at the end of the frame. -/
theorem State.Inv.readingOut_advance (h : s.Inv) (hp : s.pending = true) {n : Nat} (hn : n ≤ s.txLen.toNat) :
    (s.advance n).ReadingOut := by
  refine ⟨h.advance hn, ?_⟩
  have hsent : (len8 n).toNat = n := len8_toNat (Nat.le_trans hn (Nat.le_of_lt_succ s.txLen.isLt))
  simp only [State.advance_pending, State.advance_txSent, State.advance_txLen, hp, hsent]
  by_cases hend : n = s.txLen.toNat
  · simp [hend]
  · simp [hend, Nat.lt_of_le_of_ne hn hend]

/-- PUMP reads out a chunk, or all that is left of the frame, whatever the transport answers; with nothing left it reads
out nothing. -/
theorem State.ReadingOut.execPump_reads (hs : s.ReadingOut) (h : execPump s = .next t) :
    t.ReadingOut ∧ t.config = s.config ∧ t.txLen = s.txLen ∧
      t.txSent.toNat = min (s.txSent.toNat + s.config.chunkSize) s.txLen.toNat := by
  have hle := hs.inv.txSent_le
  obtain ⟨hp, rfl⟩ | ⟨hp, n, chunk, -, hn, -, -, -, hanswer⟩ := execPump_cases h
  · have hend : ¬ s.txSent.toNat < s.txLen.toNat := by simp [← hs.pending_iff, hp]
    refine ⟨hs.complete .., rfl, rfl, ?_⟩
    simp only [State.complete_txSent]
    omega
  · have hsum : s.txSent.toNat + n ≤ s.txLen.toNat := by omega
    have hsent : (len8 (s.txSent.toNat + n)).toNat = min (s.txSent.toNat + s.config.chunkSize) s.txLen.toNat := by
      rw [len8_toNat (by omega)]
      omega
    obtain ⟨-, rfl⟩ | ⟨-, rfl⟩ := hanswer
    · exact ⟨((hs.inv.drawn.emit _).readingOut_advance hp hsum).complete .., rfl, rfl, hsent⟩
    · exact ⟨(hs.inv.drawn.readingOut_advance hp hsum).complete .., rfl, rfl, hsent⟩

/-- k PUMPs read out k chunks, or all that is left of the frame. -/
theorem State.ReadingOut.execAll_pumps (hs : s.ReadingOut) (k : Nat) :
    ∃ t, execAll (List.replicate k .pump) s = .next t ∧ t.ReadingOut ∧ t.txLen = s.txLen ∧
      t.txSent.toNat = min (s.txSent.toNat + k * s.config.chunkSize) s.txLen.toNat := by
  induction k generalizing s with
  | zero => exact ⟨s, rfl, hs, rfl, by have := hs.inv.txSent_le; omega⟩
  | succ k ih =>
    obtain ⟨u, hu⟩ := exec_answers (i := .pump) rfl hs.inv
    obtain ⟨hread, hconfig, hlen, hsent⟩ := hs.execPump_reads hu
    obtain ⟨t, hrun, ht, htlen, htsent⟩ := ih hread
    refine ⟨t, (execAll_cons_next hu).trans hrun, ht, htlen.trans hlen, ?_⟩
    rw [htsent, hconfig, hlen, hsent, Nat.succ_mul]
    omega

/-- k chunks do not exhaust len bytes exactly where k is less than the chunks that len bytes take. -/
theorem lt_ceil_div_chunkSize_iff (c : Config) (k len : Nat) :
    k < (len + c.chunkSize - 1) / c.chunkSize ↔ k * c.chunkSize < len := by
  have hsize := c.chunkSize_range.1
  rw [Nat.lt_iff_add_one_le, Nat.le_div_iff_mul_le (by omega), Nat.succ_mul]
  omega

/-- Settles O35: `pending` is set exactly while tx_sent, which is the bytes of k chunks, is below tx_len. -/
theorem pumpsReadTheFrameOut : Obligations.PumpsReadTheFrameOut := by
  intro s k hs hp hzero
  obtain ⟨t, hrun, ht, hlen, hsent⟩ := (hs.readingOut hp).execAll_pumps k
  rw [hzero, BitVec.toNat_ofNat, Nat.zero_mod, Nat.zero_add] at hsent
  refine ⟨t, hrun, hsent, ?_⟩
  rw [ht.pending_iff, hlen, hsent, lt_ceil_div_chunkSize_iff]
  omega

/-! ## A sequence of PUMPs that the transport accepts -/

/-- PUMP of a pending frame where the transport accepts the chunk. -/
theorem State.ReadingOut.execPump_accept {chunk : List Byte} {as : List Resp} (hs : s.ReadingOut)
    (hp : s.pending = true) (has : s.answers = .accept :: as)
    (hlen : chunk.length = min (s.txLen.toNat - s.txSent.toNat) s.config.chunkSize)
    (hholds : s.txb.Holds s.txSent.toNat chunk) :
    ∃ t, execPump s = .next t ∧ t.ReadingOut ∧ t.config = s.config ∧ t.txb = s.txb ∧ t.txLen = s.txLen ∧
      t.txSent.toNat = s.txSent.toNat + chunk.length ∧ t.answers = as ∧ t.trace = s.trace ++ [.txChunk chunk] := by
  have hle := hs.inv.txSent_le
  have hcap := hs.inv.txLen_le
  have hrun := execPump_pending hp hle hlen (by omega) rfl hholds
  rw [State.resp_eq_of_head? (by rw [has, List.head?_cons])] at hrun
  obtain ⟨hread, -, -, hsent⟩ := hs.execPump_reads hrun
  exact ⟨_, hrun, hread, rfl, rfl, rfl, by omega, congrArg List.tail has, rfl⟩

/-- A memory that holds a sequence holds each part of it. -/
theorem Memory.Holds.of_append {m : Memory} {a : Nat} {l l' : List Byte} (h : m.Holds a (l ++ l')) :
    m.Holds a l ∧ m.Holds (a + l.length) l' := by
  constructor
  · intro k hk
    rw [h k (by rw [List.length_append]; omega), List.getElem?_append_left hk]
  · intro k hk
    rw [Nat.add_assoc, h _ (by rw [List.length_append]; omega), List.getElem?_append_right (by omega),
      Nat.add_sub_cancel_left]

/-- Taking the first answer off leaves a list that begins with the others. -/
theorem exists_cons_of_take_eq_replicate {α : Type} {a : α} {l : List α} {n : Nat}
    (h : l.take (n + 1) = List.replicate (n + 1) a) : ∃ l', l = a :: l' ∧ l'.take n = List.replicate n a := by
  cases l with
  | nil => simp at h
  | cons b l =>
    rw [List.take_succ_cons, List.replicate_succ, List.cons.injEq] at h
    obtain ⟨rfl, hrest⟩ := h
    exact ⟨l, rfl, hrest⟩

/-- What is left of the frame is emitted chunk by chunk: its first CHUNK_SIZE bytes, then what follows them. -/
theorem State.ReadingOut.execAll_accepted_pumps {n : Nat} {rest : List Byte} (hs : s.ReadingOut)
    (hn : ∀ k, k < n ↔ k * s.config.chunkSize < rest.length)
    (hanswers : s.answers.take n = List.replicate n .accept)
    (hlen : s.txSent.toNat + rest.length = s.txLen.toNat) (hholds : s.txb.Holds s.txSent.toNat rest) :
    ∃ (t : State) (chunks : List (List Byte)), execAll (List.replicate n .pump) s = .next t ∧
      t.trace = s.trace ++ chunks.map .txChunk ∧ chunks.length = n ∧ chunks.flatten = rest ∧
      ∀ ch ∈ chunks, 1 ≤ ch.length ∧ ch.length ≤ s.config.chunkSize := by
  induction n generalizing s rest with
  | zero =>
    have hnil : rest = [] := List.length_eq_zero_iff.mp (by simpa using hn 0)
    exact ⟨s, [], rfl, by simp, rfl, by simp [hnil], by simp⟩
  | succ n ih =>
    have hsize := s.config.chunkSize_range.1
    have hpos : 0 < rest.length := by simpa using (hn 0).mp n.succ_pos
    have hp : s.pending = true := hs.pending_iff.mpr (by omega)
    obtain ⟨as, has, hrest⟩ := exists_cons_of_take_eq_replicate hanswers
    rw [← List.take_append_drop s.config.chunkSize rest] at hholds
    obtain ⟨hhere, hthere⟩ := Memory.Holds.of_append hholds
    have htake : (rest.take s.config.chunkSize).length = min (s.txLen.toNat - s.txSent.toNat) s.config.chunkSize := by
      rw [List.length_take]
      omega
    obtain ⟨u, hu, hread, hconfig, htxb, htxLen, hsent, hleft, htrace⟩ := hs.execPump_accept hp has htake hhere
    obtain ⟨t, chunks, hrun, htrace', hcount, hspell, hsizes⟩ := ih (rest := rest.drop s.config.chunkSize) hread
      (fun k => by
        have hnext := hn (k + 1)
        rw [Nat.succ_mul] at hnext
        rw [hconfig, List.length_drop]
        omega)
      (by rw [hleft, hrest]) (by rw [hsent, htxLen, List.length_drop]; omega) (by rwa [htxb, hsent])
    refine ⟨t, rest.take s.config.chunkSize :: chunks, (execAll_cons_next (i := .pump) hu).trans hrun, ?_,
      by simp [hcount], ?_, List.forall_mem_cons.mpr ⟨by omega, hconfig ▸ hsizes⟩⟩
    · rw [htrace', htrace, List.append_assoc, List.map_cons, List.singleton_append]
    · rw [List.flatten_cons, hspell, List.take_append_drop]

/-- Settles O36: the whole frame is left, and it takes n chunks. -/
theorem acceptedChunksSpellTheFrame : Obligations.AcceptedChunksSpellTheFrame := by
  intro s n frame hs hp hzero hn hanswers hlen hholds
  exact (hs.readingOut hp).execAll_accepted_pumps (fun k => by rw [hn, hlen, lt_ceil_div_chunkSize_iff]) hanswers
    (by simp [hzero, hlen]) (by simpa [hzero] using hholds)

end Sys2Proof.Machine
end

section
/-! PROOFS. The receive engine: what INGEST drops and what it stores (43_receive.md R183 to R186), what a complete frame
comes to (R189 to R194), the receiver's transitions (R197, R198), and frames received whole or in fragments (R199). -/

namespace Sys2Proof.Machine

variable {s t : State}

/-! ## Fragments that are not stored -/

/-- Settles O37: a stray fragment has no place in RXB. -/
theorem strayFragmentIsDiscarded : Obligations.StrayFragmentIsDiscarded := fun first rest s hfirst hzero =>
  execIngest_stray (List.cons_ne_nil first rest) (by simpa [delim] using hfirst) (by simp [hzero])

/-- Settles O38: either fragment has its place in RXB, from which it passes RX_CAP. -/
theorem fragmentThatDoesNotFitIsDropped : Obligations.FragmentThatDoesNotFitIsDropped := by
  rintro first rest s (⟨rfl, hover⟩ | ⟨hfirst, hpos, hover⟩)
  · exact execIngest_overflow (List.cons_ne_nil _ _) (.inl ⟨rfl, rfl⟩) (by omega)
  · exact execIngest_overflow (List.cons_ne_nil _ _) (.inr ⟨by simpa [delim] using hfirst, hpos, rfl⟩) hover

/-! ## What RXB holds decides -/

/-- A sequence is too short for a frame, or does not end with DELIM, or is a frame's span between two bytes
(43_receive.md R186, R187). -/
theorem incomplete_or_span (buf : List Byte) :
    (buf.length < 2 ∨ buf.getLast? ≠ some delim) ∨ ∃ b0 span, buf = [b0] ++ span ++ [delim] := by
  by_cases hlast : buf.getLast? = some delim
  · obtain ⟨init, rfl⟩ := List.getLast?_eq_some_iff.mp hlast
    cases init with
    | nil => exact .inl (.inl (by simp))
    | cons b0 span => exact .inr ⟨b0, span, rfl⟩
  · exact .inl (.inr hlast)

/-- A memory that reads as buf below its length holds it. -/
theorem Memory.holds_of_get? {m m' : Memory} {buf : List Byte}
    (h : ∀ a, m.get? a = if a < buf.length then buf[a]? else m'.get? a) : m.Holds 0 buf := fun k hk => by
  rw [Nat.zero_add, h, if_pos hk]

theorem afterStore_incomplete {buf : List Byte} (hholds : s.rxb.Holds 0 buf) (hfit : buf.length ≤ s.config.rxCap)
    (h : buf.length < 2 ∨ buf.getLast? ≠ some delim) :
    afterStore buf.length s = .next ((s.withRxLen buf.length).complete .assembling (len8 buf.length) []) := by
  refine afterStore_wait (or_iff_not_imp_left.mpr fun h2 => ⟨hfit, buf[buf.length - 1]'(by omega), ?_, ?_⟩)
  · rw [← List.getElem?_eq_getElem, ← hholds _ (by omega), Nat.zero_add]
  · have hlast := h.resolve_left h2
    rwa [List.getLast?_eq_getElem?, List.getElem?_eq_getElem (by omega), ne_eq, Option.some.injEq] at hlast

theorem afterStore_span {b0 : Byte} {span : List Byte} (hholds : s.rxb.Holds 0 ([b0] ++ span ++ [delim]))
    (hfit : span.length + 2 ≤ s.config.rxCap) :
    afterStore (span.length + 2) s = frameComplete (unesc span) (span.length + 2) s := by
  obtain ⟨hinit, hlast⟩ := Memory.Holds.of_append hholds
  obtain ⟨-, hspan⟩ := Memory.Holds.of_append hinit
  refine afterStore_complete (by omega) hfit ?_ (by omega) (by simpa using hspan)
  simpa [Nat.add_comm] using hlast 0 (by simp)

/-- INGEST of a fragment that fits and completes a frame goes on with the frame's unescaped span. -/
theorem execIngest_completes {fragment span : List Byte} {b0 : Byte}
    (h : s.Accumulates fragment ([b0] ++ span ++ [delim])) (hfit : span.length + 2 ≤ s.config.rxCap) :
    ∃ rxb, execIngest fragment s = frameComplete (unesc span) (span.length + 2) (s.withRxb rxb) ∧
      ∀ a, rxb.get? a = if a < span.length + 2 then ([b0] ++ span ++ [delim])[a]? else s.rxb.get? a := by
  have hlen : ([b0] ++ span ++ [delim]).length = span.length + 2 := by simp
  obtain ⟨rxb, hrun, hrxb⟩ := execIngest_accumulates h (hlen ▸ hfit)
  have hspan := afterStore_span (s := s.withRxb rxb) (Memory.holds_of_get? hrxb) hfit
  rw [hlen] at hrun hrxb
  exact ⟨rxb, hrun.trans hspan, hrxb⟩

/-- Settles O39: RXB holds the accumulated bytes, and the completion test fails on them. -/
theorem incompleteFrameWaits : Obligations.IncompleteFrameWaits := by
  intro fragment buf s hacc hfit hwait
  obtain ⟨rxb, hrun, hrxb⟩ := execIngest_accumulates hacc hfit
  exact ⟨rxb, hrun.trans (afterStore_incomplete (s := s.withRxb rxb) (Memory.holds_of_get? hrxb) hfit hwait), hrxb⟩

/-! ## Complete frames -/

/-- Settles O40: fewer than 4 unescaped bytes are a runt. -/
theorem runtFrameIsDropped : Obligations.RuntFrameIsDropped := by
  intro fragment span b0 s hacc hfit hshort
  obtain ⟨rxb, hrun, hrxb⟩ := execIngest_completes hacc hfit
  exact ⟨rxb, hrun.trans (if_pos hshort), hrxb⟩

/-- Settles O41: the unescaped bytes are the fields of a frame, and the last of them is not the others' checksum. -/
theorem badChecksumIsRejected : Obligations.BadChecksumIsRejected := by
  intro fragment span u b0 rcv s hacc hfit hspan hlen hbad
  obtain ⟨rxb, hrun, hrxb⟩ := execIngest_completes hacc hfit
  refine ⟨rxb, hrun.trans ?_, hrxb⟩
  match u, hlen with
  | lo :: hi :: flags :: payload, _ => exact hspan ▸ (frameComplete_fields ..).trans (if_neg hbad)

/-- The identifier's bytes as one word, the first on the wire below (20_memory.md R57). -/
theorem identOf_eq_append (lo hi : Byte) : identOf lo hi = hi ++ lo := by
  refine BitVec.eq_of_getLsbD_eq fun k hk => ?_
  rw [BitVec.getLsbD_append]
  by_cases h8 : k < 8
  · simp [identOf, h8, hk]
  · simp [identOf, h8, hk, BitVec.getLsbD_of_ge lo k (Nat.le_of_not_lt h8)]

/-- Settles O42: the checksum matches, and unescaping has not lengthened the span, so the payload is at least 6 bytes
shorter than RXB. -/
theorem goodFrameIsDispatched : Obligations.GoodFrameIsDispatched := by
  intro fragment span payload b0 lo hi flags s hacc hfit hspan
  obtain ⟨rxb, hrun, hrxb⟩ := execIngest_completes hacc hfit
  have hlen : payload.length + 4 ≤ span.length := by
    have hle := unesc_length_le span
    simp only [hspan, List.length_append, List.length_cons, List.length_nil] at hle
    omega
  have hcap := s.config.rxCap_range.2
  refine ⟨rxb, ?_, hrxb, by omega, len8_toNat (by omega)⟩
  rw [exec, hrun, hspan, frameComplete_fields, if_pos rfl, identOf_eq_append, State.withRxb_config]
  split <;> rfl

/-! ## Transitions -/

/-- Where the receiver stands after a fragment is stored, by the result code (43_receive.md R197). -/
def State.StoredTransition (s t : State) (code : ResultCode) : Prop :=
  (code = .assembling ∧ 0 < t.rxLen.toNat) ∨ (code = .runt ∧ t.rxLen.toNat = 0) ∨
    (code = .checksumMismatch ∧ t.rxLen.toNat = 0) ∨
    (code = .dispatched ∧ (t.rxLen.toNat = 0 ↔ s.config.rxClearOnDispatch = true))

theorem frameComplete_transition {u : List Byte} {n : Nat} (hpos : 0 < n) (hn : n ≤ 255)
    (h : frameComplete u n s = .next t) : ∃ r, t.results = s.results ++ [r] ∧ s.StoredTransition t r.code := by
  obtain ⟨-, e⟩ | ⟨_, _, -, -, -, e⟩ | ⟨_, _, _, _, -, e⟩ := frameComplete_cases u n s <;> (rw [e] at h; cases h)
  · exact ⟨_, rfl, .inr (.inl ⟨rfl, rfl⟩)⟩
  · exact ⟨_, rfl, .inr (.inr (.inl ⟨rfl, rfl⟩))⟩
  · refine ⟨_, rfl, .inr (.inr (.inr ⟨rfl, ?_⟩))⟩
    rw [State.complete_rxLen, State.withRxLen_rxLen]
    by_cases hclear : s.config.rxClearOnDispatch = true
    · rw [if_pos hclear]
      exact iff_of_true rfl hclear
    · rw [if_neg hclear, len8_toNat hn]
      exact iff_of_false hpos.ne' hclear

theorem afterStore_transition {n : Nat} (hpos : 0 < n) (hn : n ≤ 255) (h : afterStore n s = .next t) :
    ∃ r, t.results = s.results ++ [r] ∧ s.StoredTransition t r.code := by
  have hlen : 0 < (len8 n).toNat := by rwa [len8_toNat hn]
  obtain ⟨-, rfl⟩ | ⟨-, -, _, -, -, rfl⟩ | ⟨-, -, -, _, -, -, h⟩ := afterStore_cases h
  · exact ⟨_, rfl, .inl ⟨rfl, hlen⟩⟩
  · exact ⟨_, rfl, .inl ⟨rfl, hlen⟩⟩
  · exact frameComplete_transition hpos hn h

/-- Settles O44: a fragment is stray, does not fit, or is stored. -/
theorem receiverTransitions : Obligations.ReceiverTransitions := by
  refine ⟨fun fragment s t r h hr => ?_, fun s => ⟨_, rfl, rfl⟩⟩
  obtain ⟨hne, ⟨hhead, hzero, rfl⟩ | ⟨hover, rfl⟩ | ⟨base, hbase, hfit, h⟩⟩ := execIngest_cases h
  · obtain rfl : _ = r := by simpa using hr
    exact .inl ⟨rfl, hhead, hzero, hzero⟩
  · obtain rfl : _ = r := by simpa using hr
    exact .inr (.inl ⟨rfl, rfl, hover⟩)
  · have hplace : fragment.head? = some 0xC0#8 ∨ 0 < s.rxLen.toNat := hbase.imp (·.1) (·.2.1)
    have hpos := List.length_pos_iff.mpr hne
    obtain ⟨r', hr', htrans⟩ := afterStore_transition (by omega) (Nat.le_trans hfit s.config.rxCap_range.2) h
    obtain rfl : r' = r := by simpa using hr'.symm.trans hr
    refine .inr (.inr ?_)
    simp only [hplace, true_and]
    exact htrans

/-- Settles O45: no command but INGEST and DISCONNECT writes rx_len, and INGEST's transitions are those of R197. -/
theorem nothingElseEndsAReassembly : Obligations.NothingElseEndsAReassembly := by
  intro i s t r hpos h hr hzero
  by_cases hdown : i = .disconnect
  · exact .inl hdown
  by_cases hingest : ∃ fragment, i = .ingest fragment
  · obtain ⟨fragment, rfl⟩ := hingest
    refine .inr ⟨⟨fragment, rfl⟩, ?_⟩
    obtain ⟨-, -, hempty, -⟩ | ⟨hc, -⟩ | ⟨-, -, hwaits⟩ | ⟨hc, -⟩ | ⟨hc, -⟩ | ⟨hc, -⟩ :=
      receiverTransitions.1 fragment s t r h hr
    · omega
    · simp [hc]
    · omega
    · simp [hc]
    · simp [hc]
    · simp [hc]
  · obtain ⟨-, -, -, hrx, -⟩ := ownershipOfTheState i s t h
    have hkept := (hrx (fun fragment hi => hingest ⟨fragment, hi⟩) hdown).2
    exact absurd (hkept ▸ hzero) hpos.ne'

/-! ## A queued frame, received whole -/

/-- Without reserved bytes, escaping changes nothing (41_codec.md R120, R121). -/
theorem escSeq_eq_self {p : List Byte} (hdelim : delim ∉ p) (hesc : esc ∉ p) : escSeq p = p := by
  induction p with
  | nil => rfl
  | cons b p ih =>
    simp only [List.mem_cons, not_or] at hdelim hesc
    rw [escSeq_cons, ih hdelim.2 hesc.2, escByte, if_neg (Ne.symm hdelim.1), if_neg (Ne.symm hesc.1)]
    rfl

/-- Settles O46: the payload is queued as it is, and the span between the frame's delimiters unescapes to itself. -/
theorem queuedFrameIsDispatchedIntact : Obligations.QueuedFrameIsDispatchedIntact := by
  intro ident flags p body s r hp hc htx hrx hdelim hesc hbody hpairs
  have hself : escSeq p = p := escSeq_eq_self hdelim hesc
  have hfit : (body ++ [crc8 body]).length + 2 = p.length + 6 := by simp [hbody]
  have hident : ident.extractLsb' 8 8 ++ ident.extractLsb' 0 8 = ident := BitVec.extractLsb'_append_extractLsb'
  obtain ⟨txb, hqueue, hlen, hlen8, htxb, -⟩ :=
    queueWritesTheFrame ident flags p s body _ hp hc (by rw [hself]; omega) (by rw [hself, hbody]) rfl
  obtain ⟨rxb, hingest, -⟩ := goodFrameIsDispatched ([0xC0#8] ++ body ++ [crc8 body] ++ [0xC0#8])
    (body ++ [crc8 body]) p 0xC0#8 (ident.extractLsb' 0 8) (ident.extractLsb' 8 8) flags r (.inl ⟨rfl, by simp⟩)
    (hfit.trans_le hrx) (by rw [unpairedEscapesPassThrough _ hpairs, hbody])
  exact ⟨_, _, _, hqueue, rfl, hlen8.symm, fun k hk => by rw [Nat.zero_add]; exact htxb k hk, hingest,
    by rw [hident], rfl⟩

/-! ## A frame received in fragments -/

/-- What INGEST comes to once the fragment is stored: its result, its events and the new rx_len. -/
structure Verdict where
  result : Result
  events : List Event
  length : Nat

/-- s after fragments that left `rxb` in RXB, of which the last had verdict v and those before it the results
`before`. -/
def State.received (s : State) (rxb : Memory) (before : List Result) (v : Verdict) : State :=
  { s with
    rxb := rxb
    rxLen := len8 v.length
    results := s.results ++ before ++ [v.result]
    trace := s.trace ++ v.events }

/-- v is the verdict in configuration c on RXB holding buf, whatever else the state holds. -/
def Verdict.IsOf (v : Verdict) (c : Config) (buf : List Byte) : Prop :=
  ∀ (s : State) (rxb : Memory), s.config = c → rxb.Holds 0 buf →
    afterStore buf.length (s.withRxb rxb) = .next (s.received rxb [] v)

@[simp] theorem State.received_rxb (s : State) (rxb : Memory) (before : List Result) (v : Verdict) :
    (s.received rxb before v).rxb = rxb := rfl

theorem State.received_silent (s : State) (rxb : Memory) (r : Result) (n : Nat) :
    s.received rxb [] ⟨r, [], n⟩ = ((s.withRxb rxb).withRxLen n).complete r.code r.value r.data := by
  simp [State.received, State.complete, State.withRxLen, State.withRxb]

theorem State.received_event (s : State) (rxb : Memory) (r : Result) (e : Event) (n : Nat) :
    s.received rxb [] ⟨r, [e], n⟩ = (((s.withRxb rxb).withRxLen n).emit e).complete r.code r.value r.data := by
  simp [State.received, State.complete, State.withRxLen, State.withRxb, State.emit]

/-- A complete frame's verdict is decided by its unescaped bytes and RX_CLEAR_ON_DISPATCH (R189 to R194). -/
theorem exists_frameComplete_verdict (c : Config) (u : List Byte) (n : Nat) :
    ∃ v, ∀ (s : State) (rxb : Memory), s.config = c →
      frameComplete u n (s.withRxb rxb) = .next (s.received rxb [] v) := by
  by_cases hu : u.length < 4
  · refine ⟨⟨⟨.runt, len8 u.length, []⟩, [], 0⟩, fun s rxb _ => ?_⟩
    rw [State.received_silent, frameComplete, if_pos hu]
  · obtain ⟨lo, hi, flags, payload, rcv, rfl⟩ := exists_fields (Nat.le_of_not_lt hu)
    by_cases hcrc : crc8 ([lo, hi, flags] ++ payload) = rcv
    · refine ⟨⟨⟨.dispatched, len8 payload.length, []⟩, [.rxPacket (identOf lo hi) flags payload],
        if c.rxClearOnDispatch then 0 else n⟩, fun s rxb hs => ?_⟩
      rw [State.received_event, frameComplete_fields, if_pos hcrc, State.withRxb_config, hs]
      rfl
    · refine ⟨⟨⟨.checksumMismatch, 0#8, []⟩, [.rxChecksumFail], 0⟩, fun s rxb _ => ?_⟩
      rw [State.received_event, frameComplete_fields, if_neg hcrc]

/-- ASSEMBLING: n bytes are held, and nothing is emitted (43_receive.md R186). -/
def Verdict.waiting (n : Nat) : Verdict := ⟨⟨.assembling, len8 n, []⟩, [], n⟩

theorem Verdict.waiting_isOf {c : Config} {buf : List Byte} (hfit : buf.length ≤ c.rxCap)
    (h : buf.length < 2 ∨ buf.getLast? ≠ some delim) : (Verdict.waiting buf.length).IsOf c buf := by
  intro s rxb hs hholds
  rw [Verdict.waiting, State.received_silent, afterStore_incomplete (s := s.withRxb rxb) hholds (hs ▸ hfit) h]

/-- Every sequence that fits RXB has one verdict. -/
theorem exists_verdict {c : Config} {buf : List Byte} (hfit : buf.length ≤ c.rxCap) :
    ∃ v : Verdict, v.IsOf c buf := by
  obtain hwait | ⟨b0, span, rfl⟩ := incomplete_or_span buf
  · exact ⟨_, Verdict.waiting_isOf hfit hwait⟩
  · have hlen : ([b0] ++ span ++ [delim]).length = span.length + 2 := by simp
    obtain ⟨v, hv⟩ := exists_frameComplete_verdict c (unesc span) (span.length + 2)
    rw [hlen] at hfit
    refine ⟨v, fun s rxb hs hholds => ?_⟩
    rw [hlen, afterStore_span (s := s.withRxb rxb) hholds (hs ▸ hfit), hv s rxb hs]

/-- INGEST of a fragment that fits is judged on all the bytes then held. -/
theorem execIngest_judged {fragment buf : List Byte} {v : Verdict} (h : s.Accumulates fragment buf)
    (hfit : buf.length ≤ s.config.rxCap) (hv : v.IsOf s.config buf) :
    ∃ rxb, execIngest fragment s = .next (s.received rxb [] v) ∧
      ∀ a, rxb.get? a = if a < buf.length then buf[a]? else s.rxb.get? a := by
  obtain ⟨rxb, hrun, hrxb⟩ := execIngest_accumulates h hfit
  exact ⟨rxb, hrun.trans (hv s rxb rfl (Memory.holds_of_get? hrxb)), hrxb⟩

theorem State.Accumulates.length_pos {fragment buf : List Byte} (h : s.Accumulates fragment buf) :
    0 < buf.length := by
  obtain ⟨hlead, rfl⟩ | ⟨-, hne, -, _, -, -, rfl⟩ := h
  · exact List.length_pos_iff.mpr (by rintro rfl; simp at hlead)
  · simp [List.length_pos_iff.mpr hne]

/-- The last byte accumulated is the fragment's last. -/
theorem State.Accumulates.getLast? {fragment buf : List Byte} (h : s.Accumulates fragment buf) :
    buf.getLast? = fragment.getLast? := by
  obtain ⟨-, rfl⟩ | ⟨-, hne, -, _, -, -, rfl⟩ := h
  · rfl
  · exact List.getLast?_append_of_ne_nil _ hne

/-- Fragments after the first that are continuations, where none before the last ends with DELIM: each before the last
waits, and the last is judged on all the bytes. -/
theorem execAll_ingest_clean {v : Verdict} {rest : List (List Byte)} {f buf : List Byte}
    (hacc : s.Accumulates f buf) (hcont : ∀ g ∈ rest, g ≠ [] ∧ g.head? ≠ some delim)
    (hlast : ∀ g ∈ (f :: rest).dropLast, g.getLast? ≠ some delim)
    (hfit : (buf ++ rest.flatten).length ≤ s.config.rxCap) (hv : v.IsOf s.config (buf ++ rest.flatten)) :
    ∃ rxb before, execAll ((f :: rest).map .ingest) s = .next (s.received rxb before v) ∧
      before.length = rest.length ∧ (∀ x ∈ before, x.code = .assembling) ∧
      ∀ a, rxb.get? a =
        if a < (buf ++ rest.flatten).length then (buf ++ rest.flatten)[a]? else s.rxb.get? a := by
  induction rest generalizing s f buf with
  | nil =>
    simp only [List.flatten_nil, List.append_nil] at hfit hv ⊢
    obtain ⟨rxb, hrun, hrxb⟩ := execIngest_judged hacc hfit hv
    exact ⟨rxb, [], execAll_cons_next (i := .ingest f) hrun, rfl, by simp, hrxb⟩
  | cons g rest ih =>
    obtain ⟨hg, hcont⟩ := List.forall_mem_cons.mp hcont
    rw [List.dropLast_cons_cons, List.forall_mem_cons] at hlast
    rw [List.flatten_cons, ← List.append_assoc] at hfit hv ⊢
    have hbuf : buf.length ≤ s.config.rxCap := by
      simp only [List.length_append] at hfit
      omega
    have hlen : (len8 buf.length).toNat = buf.length := len8_toNat (Nat.le_trans hbuf s.config.rxCap_range.2)
    obtain ⟨rxb₁, hrun, hrxb₁⟩ := execIngest_judged hacc hbuf
      (Verdict.waiting_isOf hbuf (.inr (hacc.getLast? ▸ hlast.1)))
    have hacc' : (s.received rxb₁ [] (.waiting buf.length)).Accumulates g (buf ++ g) :=
      .inr ⟨hg.2, hg.1, hacc.length_pos.trans_eq hlen.symm, buf, hlen.symm, Memory.holds_of_get? hrxb₁, rfl⟩
    obtain ⟨rxb, before, hrest, hcount, hcodes, hrxb⟩ := ih hacc' hcont hlast.2 hfit hv
    refine ⟨rxb, (Verdict.waiting buf.length).result :: before, ?_, by simp [hcount],
      List.forall_mem_cons.mpr ⟨rfl, hcodes⟩, fun a => ?_⟩
    · rw [List.map_cons, execAll_cons_next (i := .ingest f) hrun, hrest]
      simp [State.received, Verdict.waiting]
    · rw [hrxb a, State.received_rxb, hrxb₁ a]
      split
      · rfl
      · rename_i ha
        simp only [List.length_append] at ha
        exact if_neg (by omega)

/-- Settles O47: the first fragment is leading, and so is the whole; both are judged on the same bytes. -/
theorem cleanSplitsKeepTheOutcome : Obligations.CleanSplitsKeepTheOutcome := by
  intro frags s hne hhead hcont hlast hfit
  obtain ⟨v, hv⟩ := exists_verdict hfit
  cases frags with
  | nil => simp at hhead
  | cons f rest =>
    obtain ⟨hf, hrest⟩ := List.forall_mem_cons.mp hne
    have hfirst : f.head? = some delim := by
      rwa [List.flatten_cons, List.head?_append_of_ne_nil _ hf] at hhead
    obtain ⟨rxb, before, hsplit, hcount, hcodes, hrxb⟩ := execAll_ingest_clean (.inl ⟨hfirst, rfl⟩)
      (fun g hg => ⟨hrest g hg, hcont g hg⟩) hlast hfit hv
    obtain ⟨rxb', hwhole, hrxb'⟩ := execIngest_judged (.inl ⟨hhead, rfl⟩) hfit hv
    exact ⟨_, _, before, v.result, hsplit, hwhole, rfl, rfl, fun a => (hrxb a).trans (hrxb' a).symm,
      by simp [State.received], rfl, by simp [hcount], hcodes⟩

end Sys2Proof.Machine
end

section
/-! PROOFS. The link-state inputs and the status read: what CONNECT and DISCONNECT write (44_lifecycle.md R210, R211), what
the commands right after a DISCONNECT see (R213), READ_STATUS (R214), and that only a QUEUE sets pending (R215). -/

namespace Sys2Proof.Machine

variable {s t : State}

/-! ## Sequences of commands -/

theorem execAll_singleton (i : Instr) (s : State) : execAll [i] s = exec i s := by
  rw [execAll]
  cases exec i s <;> rfl

/-- What each command of a sequence keeps, the sequence keeps. -/
theorem execAll_induction {P : State → Prop} {is : List Instr}
    (hstep : ∀ i ∈ is, ∀ s t, P s → exec i s = .next t → P t) (hs : P s) (h : execAll is s = .next t) : P t := by
  induction is generalizing s with
  | nil => cases h; exact hs
  | cons i is ih =>
    obtain ⟨hi, his⟩ := List.forall_mem_cons.mp hstep
    obtain ⟨u, hu, h⟩ := execAll_cons_eq_next.mp h
    exact ih his (hi s u hs hu) h

/-! ## CONNECT and DISCONNECT -/

/-- Settles O48: W is the encoding of CONNECT, which writes `connected` alone. -/
theorem connectSetsTheFlag : Obligations.ConnectSetsTheFlag :=
  ⟨decodeInvertsEncode .connect rfl, fun _ => rfl, _, rfl, by decide⟩

theorem State.linkDown_status (s : State) : s.linkDown.status = 0#8 := by
  simp [State.status, State.rxActive, bit8]

/-- After a DISCONNECT the next command sees the link down and one result more. -/
theorem execAll_disconnect_cons (is : List Instr) (s : State) :
    execAll (.disconnect :: is) s = execAll is (s.linkDown.complete .ok 0#8 []) :=
  execAll_cons_next rfl

theorem execAll_connect_cons (is : List Instr) (s : State) :
    execAll (.connect :: is) s = execAll is (s.linkUp.complete .ok 0#8 []) :=
  execAll_cons_next rfl

/-- QUEUE of a payload that fits answers OK where nothing is pending and the link is up (42_transmit.md R157). -/
theorem exec_queue_ok {d : List Byte} (hp : s.pending = false) (hc : s.connected = true)
    (hfits : (escSeq d).length ≤ s.config.txCap - 6) (ident : Ident) (flags : Byte) :
    ∃ (t : State) (r : Result), exec (.queue ident flags d) s = .next t ∧ t.results.getLast? = some r ∧
      r.code = .ok := by
  obtain ⟨txb, hrun, -⟩ := queueWritesTheFrame ident flags d s _ _ hp hc hfits rfl rfl
  exact ⟨_, _, hrun, List.getLast?_concat, rfl⟩

/-- Settles O49: what a DISCONNECT clears is all that STATUS shows and, but for the connection, all that QUEUE tests. -/
theorem disconnectAbortsSendAndReassembly : Obligations.DisconnectAbortsSendAndReassembly := by
  refine ⟨decodeInvertsEncode .disconnect rfl, fun _ => rfl, fun s _ => ⟨_, rfl, s.linkDown_status⟩,
    fun s ident flags d hfits => ?_⟩
  rw [execAll_disconnect_cons, execAll_connect_cons, execAll_singleton]
  exact exec_queue_ok (s := (s.linkDown.complete .ok 0#8 []).linkUp.complete .ok 0#8 []) rfl rfl hfits ident flags

/-- Settles O52: each command meets the test that the fields a DISCONNECT clears decide. -/
theorem commandsAfterADisconnect : Obligations.CommandsAfterADisconnect := by
  rintro s _ rfl
  refine ⟨fun ident flags d => ?_, ?_, fun first rest hfirst => ?_⟩ <;>
    rw [execAll_disconnect_cons, execAll_singleton]
  · exact queueNeedsTheConnection ident flags d _ rfl rfl
  · exact pumpWithNothingPending _ rfl
  · exact strayFragmentIsDiscarded first rest _ hfirst rfl

/-! ## READ_STATUS -/

theorem State.status_eq (s : State) :
    s.status = (if s.pending then 1#8 else 0#8) ||| ((if s.connected then 1#8 else 0#8) <<< 1) |||
      ((if s.rxLen ≠ 0#8 then 1#8 else 0#8) <<< 2) := by
  simp only [State.status, bit8, State.rxActive, bne_iff_ne]

/-- Settles O50: the status is R25's formula, whose bit 0 is `pending`. -/
theorem readStatusReportsTheState : Obligations.ReadStatusReportsTheState :=
  ⟨decodeInvertsEncode .readStatus rfl, fun _ => rfl, State.status_eq, fun s => (statusFields.2 s).1⟩

/-! ## Only a QUEUE sets pending -/

/-- Of the commands that write `pending`, PUMP answers IDLE where it is clear, and DISCONNECT clears it. -/
theorem exec_keeps_pending_clear {i : Instr} (hi : ∀ ident flags d, i ≠ .queue ident flags d)
    (hp : s.pending = false) (h : exec i s = .next t) : t.pending = false := by
  by_cases hpump : i = .pump
  · subst hpump
    cases (execPump_idle hp).symm.trans h
    exact hp
  · by_cases hdown : i = .disconnect
    · subst hdown
      cases h
      rfl
    · obtain ⟨-, -, htx, -⟩ := ownershipOfTheState i s t h
      obtain ⟨-, -, -, hpending⟩ := htx hi hpump hdown
      exact hpending.trans hp

/-- BUSY is QUEUE's answer to a pending frame alone (42_transmit.md R151). -/
theorem execQueue_code_ne_busy {ident : Ident} {flags : Byte} {d : List Byte} {r : Result} (hp : s.pending = false)
    (h : execQueue ident flags d s = .next t) (hr : t.results = s.results ++ [r]) : r.code ≠ .busy := by
  obtain ⟨hbusy, -⟩ | ⟨-, -, rfl⟩ | ⟨-, -, -, rfl⟩ | ⟨-, -, _, -, -, rfl⟩ := execQueue_cases h
  · rw [hp] at hbusy
    cases hbusy
  all_goals
    obtain rfl := List.singleton_inj.mp (List.append_cancel_left hr)
    simp

/-- Settles O56: no command of the sequence sets `pending`, so the QUEUE after it passes its first test. -/
theorem readIdleStaysTrueUntilAQueue : Obligations.ReadIdleStaysTrueUntilAQueue := by
  intro is s t hp hnoQueue h
  have hidle : t.pending = false :=
    execAll_induction (P := fun s => s.pending = false) (fun i hi _ _ => exec_keeps_pending_clear (hnoQueue i hi)) hp h
  exact ⟨hidle, fun _ _ _ _ _ => execQueue_code_ne_busy hidle⟩

end Sys2Proof.Machine
end

section
/-! PROOFS. The exceptions: a step with no command at the port (60_exceptions.md R243). -/

namespace Sys2Proof.Machine

/-- Settles O7: an empty port is the first branch of `step`. -/
theorem idleBlockKeepsItsState : Obligations.IdleBlockKeepsItsState := fun _ hport => step_nil hport

end Sys2Proof.Machine
end

section
/-! PROOFS. Runs from reset complete (70_reset_and_hazards.md R271), a DISCONNECT leaves what reset leaves but for the
transmit counters (R261), and a frame that nobody pumps stays pending (R265). -/

namespace Sys2Proof.Machine

variable {s t u : State}

/-! ## Runs complete -/

/-- A step with a command at the port takes that command alone, and gives it exactly one result. -/
theorem step_completes_one {c : Cmd} {rest : List Cmd} (hport : s.port = c :: rest) (h : step s = .next t) :
    t.port = rest ∧ ∃ r, t.results = s.results ++ [r] := by
  rw [step_cons hport] at h
  cases hd : c.decode with
  | instr i =>
    rw [execCmd_instr hd] at h
    obtain ⟨-, hrest, -⟩ := ownershipOfTheState _ _ _ h
    obtain ⟨r, -, hresults, -⟩ := exec_answered h
    exact ⟨hrest, r, hresults⟩
  | illegal why =>
    cases (execCmd_illegal hd _).symm.trans h
    exact ⟨rfl, _, rfl⟩

/-- From a state that meets the invariant, as many steps as there are commands at the port complete them all. -/
theorem run_completes {cmds : List Cmd} (hs : s.Inv) (hport : s.port = cmds) :
    ∃ t, Sys2Proof.core.run cmds.length s = .next t ∧ t.port = [] ∧
      t.results.length = s.results.length + cmds.length := by
  induction cmds generalizing s with
  | nil => exact ⟨s, rfl, hport, rfl⟩
  | cons c rest ih =>
    obtain ⟨u, hu⟩ := noStepStops s hs
    obtain ⟨hrest, r, hr⟩ := step_completes_one hport hu
    obtain ⟨t, hrun, hempty, hcount⟩ := ih (everyStepKeepsTheInvariant s u hs hu) hrest
    refine ⟨t, (run_succ_next rest.length hu).trans hrun, hempty, ?_⟩
    rw [hcount, hr, List.length_append, List.length_singleton, List.length_cons]
    omega

/-- Settles O12: a run starts from a state that meets the invariant, with its commands at the port and no result. -/
theorem runsCompleteWithOneResultEach : Obligations.RunsCompleteWithOneResultEach := by
  intro c cmds answers
  obtain ⟨t, hrun, hempty, hcount⟩ := run_completes (start_inv c cmds answers) (State.start_port c cmds answers)
  obtain ⟨hinv, hconfig⟩ := runOf_inv hrun
  exact ⟨t, hrun, hempty, by simpa using hcount, hconfig, hinv⟩

/-! ## A DISCONNECT against reset -/

/-- With nothing pending and rx_len 0, no byte of a memory and no transmit counter is compared. -/
theorem State.linkDown_agrees_resetWith (s : State) :
    s.linkDown.Agrees { State.resetWith s.config with
      port := s.port, answers := s.answers, draws := s.draws, results := s.results, trace := s.trace } where
  config := rfl
  pending := rfl
  connected := rfl
  rxLen := rfl
  rxb := nofun
  txLen := nofun
  txSent := nofun
  txb := nofun
  port := rfl
  answers := rfl
  draws := rfl
  results := rfl
  trace := rfl

/-- Settles O59: DISCONNECT's result is the next state's own, and its writes leave what reset leaves. -/
theorem disconnectIsResetButForTheCounters : Obligations.DisconnectIsResetButForTheCounters :=
  fun s => ⟨_, rfl, rfl, rfl, s.linkDown_agrees_resetWith.complete .ok 0#8 []⟩

/-! ## A frame that nobody pumps -/

/-- A frame is pending in t, with the bytes and the counters that s has. -/
def State.FramePending (s t : State) : Prop :=
  t.pending = true ∧ t.txb = s.txb ∧ t.txLen = s.txLen ∧ t.txSent = s.txSent

/-- Of the commands that write the transmit fields, only QUEUE is left, and it answers BUSY (42_transmit.md R151). -/
theorem exec_keeps_framePending {i : Instr} (hi : i ≠ .pump ∧ i ≠ .disconnect) (ht : s.FramePending t)
    (h : exec i t = .next u) : s.FramePending u := by
  obtain ⟨hpump, hdown⟩ := hi
  by_cases hqueue : ∃ ident flags d, i = .queue ident flags d
  · obtain ⟨ident, flags, d, rfl⟩ := hqueue
    cases (execQueue_busy ht.1 ident flags d).symm.trans h
    exact ht
  · obtain ⟨-, -, htx, -⟩ := ownershipOfTheState i t u h
    obtain ⟨htxb, hlen, hsent, hpending⟩ :=
      htx (fun ident flags d e => hqueue ⟨ident, flags, d, e⟩) hpump hdown
    simpa only [State.FramePending, htxb, hlen, hsent, hpending] using ht

/-- Settles O57: every command of the sequence keeps the frame, and the QUEUE after it still finds it pending. -/
theorem unpumpedFrameStaysPending : Obligations.UnpumpedFrameStaysPending := by
  intro is s t hp hidle h
  obtain ⟨hpending, htxb, hlen, hsent⟩ : s.FramePending t :=
    execAll_induction (fun i hi _ _ => exec_keeps_framePending (hidle i hi)) ⟨hp, rfl, rfl, rfl⟩ h
  exact ⟨hpending, htxb, hlen, hsent, execQueue_busy hpending⟩

end Sys2Proof.Machine
end
